-- ==== Sys2Proof/Word.lean ====
section
/-!
DEFINITION. The value types of the block: its words (30_encoding.md R42, R50), the registers' widths (00_scope.md R6, R7)
and its index spaces (20_memory.md R31).
-/

namespace Sys2Proof

/-- The 24-bit command word `cmd[23:0]` (R42). -/
abbrev Word := BitVec 24

/-- The 12-bit event word `evt[11:0]` (R50). -/
abbrev EventWord := BitVec 12

/-- An 8-bit value: a raw register value, `HIST`, `CNT`, `DELAY`, a packed byte, a logical index (R6, R7). -/
abbrev Byte := BitVec 8

/-- A 4-bit value: a packed nibble, or the stored `WIDTH` (R6, R7). -/
abbrev Nibble := BitVec 4

/-- The port index `p`, 0 to 2 (R31). The 2-bit value 3 is no port: a word that holds it is reserved (R47). -/
abbrev Port := Fin 3

/-- The pin index `j`, 0 to 7 (R31). -/
abbrev Pin := Fin 8

end Sys2Proof
end

