-- ==== Sys2Proof/Syntax.lean ====
section
/-!
DEFINITION. The commands of the block: the decoded command (30_encoding.md R45, R56), one constructor per row of the opcode
table, and the assembler's commands with their unchecked operands (R53, R54).
-/

namespace Sys2Proof

/-- A decoded command. Operand widths are those of R46; `p` ranges over 0 to 2 as R56 says, so every term is a legal
command. -/
inductive Instr where
  /-- `NOP` (R57). -/
  | nop
  /-- `INIT w, r`: raw `windowWidth` and raw `releaseDelay` (R59). -/
  | init (w r : Byte)
  /-- `SETDIR d`: bit `p` of `d` is the new direction of port `p` (R60). -/
  | setdir (d : BitVec 3)
  /-- `SCAN p, raw`: bit `j` of `raw` is the raw sample of pin `j` (R71). -/
  | scan (p : Port) (raw : Byte)
  /-- `REPORT p` (R78). -/
  | report (p : Port)
  /-- `RESYNC p, owed` (R82). -/
  | resync (p : Port) (owed : Bool)
  /-- `TICK p, raw, owed` (R86). -/
  | tick (p : Port) (raw : Byte) (owed : Bool)
  /-- `DISPATCH idx, level` (R88). -/
  | dispatch (idx : Byte) (level : Bool)
deriving DecidableEq, Repr

/-- A command as a caller writes it in the assembler syntax (R53): the operands are numbers whose ranges are still to be
checked. -/
inductive SourceCommand where
  /-- `NOP`. -/
  | nop
  /-- `INIT w, r`. -/
  | init (w r : Nat)
  /-- `SETDIR d`. -/
  | setdir (d : Nat)
  /-- `SCAN p, raw`. -/
  | scan (p raw : Nat)
  /-- `REPORT p`. -/
  | report (p : Nat)
  /-- `RESYNC p, owed`. -/
  | resync (p owed : Nat)
  /-- `TICK p, raw, owed`. -/
  | tick (p raw owed : Nat)
  /-- `DISPATCH idx, level`. -/
  | dispatch (idx level : Nat)
deriving DecidableEq, Repr

/-- One line of assembler source: a command or one of the four pseudo-instructions (R53, R54). -/
inductive SourceLine where
  /-- A command of the block. -/
  | command (c : SourceCommand)
  /-- `TICKALL r0, r1, r2, owed` (R54). -/
  | tickall (r0 r1 r2 owed : Nat)
  /-- `ON idx` (R54). -/
  | on (idx : Nat)
  /-- `OFF idx` (R54). -/
  | off (idx : Nat)
  /-- `INPUTS` (R54). -/
  | inputs
deriving DecidableEq, Repr

end Sys2Proof
end

