-- ==== Sys2Proof/Decode.lean ====
section
/-!
DEFINITION. The command encoding (30_encoding.md R42 to R48): fields, the total decoder of R55, the opcode map of R45 as a
table, and the encoder, written from the formats of R43 and R44.
-/

namespace Sys2Proof

/-- Why a word is reserved (R47). The block does not record it; where several reasons hold the decoder names the first of
them in this order (notes/assumptions/7.md). -/
inductive Reserved where
  /-- `op` is 0x8 to 0xF. -/
  | opcode
  /-- The format has a `p` field and `p == 3`. -/
  | port
  /-- A must-be-zero bit of the format is 1. -/
  | mustBeZero
deriving DecidableEq, Repr

/-- What a word decodes to: exactly one command with its operands, or "reserved" (R55). -/
inductive Decoded where
  /-- A legal word. -/
  | command (i : Instr)
  /-- A reserved word, which the block ignores (R47). -/
  | reserved (why : Reserved)
deriving DecidableEq, Repr

/-- Field `op = cmd[23:20]` (R43). -/
def opField (cmd : Word) : BitVec 4 := cmd.extractLsb 23 20
/-- Field `p = cmd[19:18]` (R43). -/
def pField (cmd : Word) : BitVec 2 := cmd.extractLsb 19 18
/-- Field `z = cmd[17]` (R43). -/
def zField (cmd : Word) : Bool := cmd.getLsbD 17
/-- Field `f = cmd[16]` (R43). -/
def fField (cmd : Word) : Bool := cmd.getLsbD 16
/-- Field `a = cmd[15:8]` (R43). -/
def aField (cmd : Word) : Byte := cmd.extractLsb 15 8
/-- Field `b = cmd[7:0]` (R43). -/
def bField (cmd : Word) : Byte := cmd.extractLsb 7 0

/-- The port a `p` field names; the value 3 is reserved (R43). -/
def portOfBits (v : BitVec 2) : Option Port :=
  if h : v.toNat < 3 then some ⟨v.toNat, h⟩ else none

/-- A command without a `p` field: legal when its must-be-zero bits are zero. -/
def decodePlain (zeros : Bool) (i : Instr) : Decoded :=
  if zeros then .command i else .reserved .mustBeZero

/-- A command with a `p` field: legal when `p != 3` and its must-be-zero bits are zero. -/
def decodeAtPort (cmd : Word) (zeros : Bool) (f : Port → Instr) : Decoded :=
  match portOfBits (pField cmd) with
  | none => .reserved .port
  | some p => if zeros then .command (f p) else .reserved .mustBeZero

/-- The decoder, total on 24-bit words (the algorithm of R55). -/
def decode (cmd : Word) : Decoded :=
  match (opField cmd).toNat with
  | 0 => decodePlain (cmd.extractLsb 19 0 == 0) .nop
  | 1 => decodePlain (cmd.extractLsb 19 16 == 0) (.init (aField cmd) (bField cmd))
  | 2 => decodePlain (cmd.extractLsb 19 3 == 0) (.setdir (cmd.extractLsb 2 0))
  | 3 => decodeAtPort cmd (cmd.extractLsb 17 8 == 0) (.scan · (bField cmd))
  | 4 => decodeAtPort cmd (cmd.extractLsb 17 0 == 0) .report
  | 5 => decodeAtPort cmd (!zField cmd && cmd.extractLsb 15 0 == 0) (.resync · (fField cmd))
  | 6 => decodeAtPort cmd (!zField cmd && aField cmd == 0) (.tick · (bField cmd) (fField cmd))
  | 7 => decodePlain (cmd.extractLsb 19 17 == 0 && aField cmd == 0) (.dispatch (bField cmd) (fField cmd))
  | _ => .reserved .opcode

/-- The word with the given fields (R43): `op @ p @ z @ f @ a @ b` with `z` always zero. -/
def wordOfFields (op : BitVec 4) (p : BitVec 2) (f : Bool) (a b : Byte) : Word :=
  op ++ p ++ (0 : BitVec 1) ++ BitVec.ofBool f ++ a ++ b

/-- The `p` field of a port. -/
def portBits (p : Port) : BitVec 2 := BitVec.ofNat 2 p.val

/-- The encoder: a field that a command's format does not use is zero (R43, R44). -/
def encode : Instr → Word
  | .nop => wordOfFields 0x0 0 false 0 0
  | .init w r => wordOfFields 0x1 0 false w r
  | .setdir d => wordOfFields 0x2 0 false 0 (d.zeroExtend 8)
  | .scan p raw => wordOfFields 0x3 (portBits p) false 0 raw
  | .report p => wordOfFields 0x4 (portBits p) false 0 0
  | .resync p owed => wordOfFields 0x5 (portBits p) owed 0 0
  | .tick p raw owed => wordOfFields 0x6 (portBits p) owed 0 raw
  | .dispatch idx level => wordOfFields 0x7 0 level 0 idx

/-- One row of the opcode map (R45). -/
structure OpcodeRow where
  /-- The bits a word of this row has fixed. -/
  mask : Word
  /-- Their values. -/
  pattern : Word
  /-- Does the row carry the further condition `p != 3`? -/
  hasPort : Bool
deriving DecidableEq, Repr

/-- The opcode map of R45, one row per opcode 0x0 to 0x7 in order: mask, match, and whether the row has a `p` field. -/
def opcodeMap : List OpcodeRow :=
  [⟨0xFFFFFF, 0x000000, false⟩, ⟨0xFF0000, 0x100000, false⟩, ⟨0xFFFFF8, 0x200000, false⟩, ⟨0xF3FF00, 0x300000, true⟩,
   ⟨0xF3FFFF, 0x400000, true⟩, ⟨0xF2FFFF, 0x500000, true⟩, ⟨0xF2FF00, 0x600000, true⟩, ⟨0xFEFF00, 0x700000, false⟩]

/-- "a word `cmd` selects the row when `cmd & mask == match` and, for the rows with a `p` field, `p != 3`" (R45). -/
def OpcodeRow.selects (r : OpcodeRow) (cmd : Word) : Bool :=
  (cmd &&& r.mask) == r.pattern && !(r.hasPort && pField cmd == 3)

/-- The row of the opcode map a command belongs to: its opcode. -/
def opcodeOf : Instr → Nat
  | .nop => 0
  | .init _ _ => 1
  | .setdir _ => 2
  | .scan _ _ => 3
  | .report _ => 4
  | .resync _ _ => 5
  | .tick _ _ _ => 6
  | .dispatch _ _ => 7

/-- The decoder as a partial map: the command of a legal word. -/
def Decoded.command? : Decoded → Option Instr
  | .command i => some i
  | .reserved _ => none

/-- The 24-bit word whose low `nbits` bits are those of `w` and whose other bits are zero. A command word is presented in
parallel (R34), so bit `k` of the table's number is `cmd[k]` (notes/assumptions/17.md). -/
def tableWord (nbits w : Nat) : Word := BitVec.ofNat 24 (w % 2 ^ nbits)

/-- The command the decoder reads from an opcode-table word. -/
def decodeTableWord (nbits w : Nat) : Option Instr := (decode (tableWord nbits w)).command?

end Sys2Proof
end

