-- ==== Sys2Proof/Config.lean ====
section
/-!
DEFINITION. The open parameters of the block (00_scope.md R8): `RESET_DELAY`, `BIND_N` and `BIND`. No rule fixes their
values, so the constants below have no body and nothing can be proved of the values they stand for (notes/assumptions 2, 3).
-/

namespace Sys2Proof

/-- The parameters one instance of the block is built with (R8), as plain data. -/
structure Board where
  /-- `RESET_DELAY`: the value of `DELAY` after reset. -/
  resetDelay : Byte
  /-- `BIND` as a table: entry `i` is the `(p, j)` that logical index `i` is bound to. `BIND_N` is its length. The map
  need be neither injective nor onto (C8). -/
  bind : List (Port × Pin)
deriving DecidableEq, Repr

/-- `RESET_DELAY`, an 8-bit value the spec leaves open (R8, R107 a, U6). -/
opaque Config.resetDelay : Byte

/-- `BIND_N`, a natural number from 0 to 256 that the spec leaves open (R8, U7). -/
opaque Config.bindN : Fin 257

/-- `BIND`, which the spec leaves open (R8, U7); only its values below `BIND_N` are ever used. -/
opaque Config.bind : Nat → Port × Pin

/-- The instance this model is of: every theorem about it holds whatever the three open parameters are. -/
def Config.board : Board where
  resetDelay := Config.resetDelay
  bind := (List.range Config.bindN.val).map Config.bind

end Sys2Proof
end

