-- ==== Sys2Proof/Machine/State.lean ====
section
/-!
DEFINITION. All state of the block (10_state.md), its events (30_encoding.md R49) and its state after reset (10_state.md R28,
70_reset_and_hazards.md R106).
-/

namespace Sys2Proof.Machine

/-- `DIR`: "enumerated {Input, Output}", encoded 0 = Input, 1 = Output (R18, R7). -/
inductive Direction where
  /-- 0: the port's pins are feedback inputs. -/
  | input
  /-- 1: the port's pins are accessory outputs. -/
  | output
deriving DecidableEq, Repr

/-- The nibble selector `which`, encoded 0 = Low, 1 = High (R31, R7). -/
inductive Which where
  /-- Pins 4 to 7. -/
  | low
  /-- Pins 0 to 3. -/
  | high
deriving DecidableEq, Repr

/-- An output request of the block (R49). -/
inductive Event where
  /-- `SendNibble(p, which, value)`. -/
  | sendNibble (p : Port) (which : Which) (value : Nibble)
  /-- `SendByte(p, value)`. -/
  | sendByte (p : Port) (value : Byte)
  /-- `Activity`. -/
  | activity
deriving DecidableEq, Repr

/-- One filter cell, the source's PinState (R13). -/
structure Cell where
  /-- `HIST[p][j]`: the last 8 raw samples, the newest in bit 0 (R14). -/
  hist : Byte
  /-- `CNT[p][j]`: the release countdown (R15). -/
  cnt : Byte
  /-- `FS[p][j]`: the filtered state (R16). -/
  fs : Bool
deriving DecidableEq, Repr

/-- One port group: its 8 cells, its 8 output latches and its registers (R13, R17, R18, R22). -/
structure PortGroup where
  /-- The cells of pins 0 to 7. -/
  cells : Vector Cell 8
  /-- `LASTLO[p]` (R17). -/
  lastLo : Nibble
  /-- `LASTHI[p]` (R17). -/
  lastHi : Nibble
  /-- `DIR[p]` (R18). -/
  dir : Direction
  /-- `OUT[p][7:0]`: the level last written to each output pin (R22). -/
  out : Vector Bool 8
deriving DecidableEq, Repr

/-- What the environment may do next: present a command word (R42) or apply the reset event (R105). -/
inductive Stimulus where
  /-- The caller presents a command word. -/
  | command (cmd : Word)
  /-- The environment applies the reset event. -/
  | reset
deriving DecidableEq, Repr

/-- The state of the block, with what the environment will still do and what the block has emitted. -/
structure State where
  /-- The three port groups. -/
  ports : Vector PortGroup 3
  /-- `WIDTH`, legal values 1 to 8 (R19). -/
  width : Nibble
  /-- `DELAY` (R21). -/
  delay : Byte
  /-- The model's own field: the instance's open parameters, which no step changes (R8, notes/assumptions/1.md). -/
  board : Board
  /-- The model's own field: what the environment still presents, first to come first (R25, notes/assumptions/4.md). -/
  pending : List Stimulus
  /-- The output event sequence since the last reset, in emission order (R11, R49, R106). -/
  events : List Event
  /-- The model's own field: the events of this run emitted before the last reset event (R118,
  notes/assumptions/5.md). -/
  eventsBefore : List Event
deriving DecidableEq, Repr

/-- The reasons a step faults: there are none. "No command raises an exception, fault or trap, and the block has no error
output, no error flag and no fault state" (R94). Safe: nothing stops that the hardware would run. -/
inductive Fault
deriving DecidableEq, Repr

/-- The reasons a step is refused. -/
inductive Refusal where
  /-- Raised by an arm of `exec` whose instruction has no meaning yet; no arm raises it. Safe. -/
  | notModelled (mnemonic : String)
deriving DecidableEq, Repr

/-- A cell after reset or INIT: all-zero, false (R28, R59). -/
def Cell.cleared : Cell := { hist := 0x00, cnt := 0x00, fs := false }

/-- A port group after reset (R28, R106). -/
def PortGroup.reset : PortGroup where
  cells := Vector.replicate 8 Cell.cleared
  lastLo := 0x0
  lastHi := 0x0
  dir := .input
  out := Vector.replicate 8 false

/-- The state after reset of an instance with the given open parameters (R28, R106): every register at its reset value,
the event sequence empty, nothing presented yet. -/
def State.resetWith (b : Board) : State where
  ports := Vector.replicate 3 PortGroup.reset
  width := 3
  delay := b.resetDelay
  board := b
  pending := []
  events := []
  eventsBefore := []

/-- The machine right after reset, whatever its open parameters are. -/
def State.reset : State := State.resetWith Config.board

end Sys2Proof.Machine
end

