-- ==== Sys2Proof/Machine/Operands.lean ====
section
/-!
DEFINITION. How operands are read (30_encoding.md R46): the window clamp, direction bits, raw samples and the output binding.
-/

namespace Sys2Proof.Machine

/-- `clamp_w(w)`: 0 gives 1, 1 to 8 give themselves, 9 and above give 8 (R58). -/
def clampWidth (w : Byte) : Nibble :=
  if w = 0 then 1 else if w ≤ 8 then w.truncate 4 else 8

/-- The direction a bit encodes: 0 = Input, 1 = Output (R7, R18). -/
def Direction.ofBit : Bool → Direction
  | false => .input
  | true => .output

/-- The bit that encodes a direction (R7, R18). -/
def Direction.bit : Direction → Bool
  | .input => false
  | .output => true

/-- Bit `p` of SETDIR's operand, as the new direction of port `p` (R60, R32). -/
def dirOperand (d : BitVec 3) (p : Port) : Direction := Direction.ofBit (d.getLsbD p.val)

/-- The raw sample of pin `j`: bit `j` of the raw register value, 1 = true (R32, R71). -/
def rawSample (raw : Byte) (j : Pin) : Bool := raw.getLsbD j.val

/-- `BIND(idx)` for `idx < BIND_N`, nothing for an index outside the addressed range (R8, R88, R89). -/
def boundPin (b : Board) (idx : Byte) : Option (Port × Pin) := b.bind[idx.toNat]?

end Sys2Proof.Machine
end

