-- ==== Sys2Proof/Machine/Flags.lean ====
section
/-!
DEFINITION. The flag computations: the filtered state of a cell (41_sample_filter.md R62) and the packed nibbles and dirty
marks of a change report (43_change_nibble_encoder.md R75 to R78).
-/

namespace Sys2Proof.Machine

/-- `MASK = (1 << WIDTH) - 1`, computed in more than 8 bits, then taken as 8 bits (R20). -/
def maskOf (width : Nibble) : Byte := (((1 : BitVec 16) <<< width.toNat) - 1).truncate 8

/-- Step 1 of `filter_step`: shift the window left by one, the new sample in bit 0 (R62). -/
def shiftHist (hist : Byte) (raw : Bool) : Byte := (hist <<< 1) ||| (BitVec.ofBool raw).zeroExtend 8

/-- Step 2 of `filter_step`: a true sample reloads the countdown, a false one decrements it down to 0 (R62). -/
def nextCnt (delay cnt : Byte) (raw : Bool) : Byte :=
  if raw then delay else if cnt > 0 then cnt - 1 else cnt

/-- Step 3 of `filter_step`, over the `HIST` and `CNT` that steps 1 and 2 of the same step wrote; the branch is chosen by
the value `FS` had when the step began (R62, R63). -/
def nextFs (width : Nibble) (hist cnt : Byte) (fs : Bool) : Bool :=
  if fs = false then
    if hist &&& maskOf width = maskOf width then true else fs
  else
    if cnt = 0 then false else fs

/-- `filter_step` on one cell (R62). -/
def filterStep (width : Nibble) (delay : Byte) (c : Cell) (raw : Bool) : Cell :=
  let hist := shiftHist c.hist raw
  let cnt := nextCnt delay c.cnt raw
  { hist := hist, cnt := cnt, fs := nextFs width hist cnt c.fs }

/-- The cell after one `filter_step` per sample, in the order of the list: the ticks of a cell (section 2 of
41_sample_filter.md). -/
def filterRun (width : Nibble) (delay : Byte) (c : Cell) (samples : List Bool) : Cell :=
  samples.foldl (filterStep width delay) c

/-- Four filtered states concatenated, the first in the most significant bit (R10, R75, R76). -/
def nibbleOf (b3 b2 b1 b0 : Bool) : Nibble :=
  BitVec.ofBool b3 ++ BitVec.ofBool b2 ++ BitVec.ofBool b1 ++ BitVec.ofBool b0

/-- `PACKLO = FS[4] @ FS[5] @ FS[6] @ FS[7]`: pin 4 in the most significant bit (R75). -/
def packLo (g : PortGroup) : Nibble := nibbleOf g.cells[4].fs g.cells[5].fs g.cells[6].fs g.cells[7].fs

/-- `PACKHI = FS[0] @ FS[1] @ FS[2] @ FS[3]`: pin 0 in the most significant bit (R76). -/
def packHi (g : PortGroup) : Nibble := nibbleOf g.cells[0].fs g.cells[1].fs g.cells[2].fs g.cells[3].fs

/-- `PACKBYTE = PACKHI @ PACKLO` (R77). -/
def packByte (g : PortGroup) : Byte := packHi g ++ packLo g

/-- The transient mark `dirtyLow` of a change report (R78). -/
def dirtyLow (g : PortGroup) : Bool := packLo g != g.lastLo

/-- The transient mark `dirtyHigh` of a change report (R78). -/
def dirtyHigh (g : PortGroup) : Bool := packHi g != g.lastHi

end Sys2Proof.Machine
end

