-- ==== Sys2Proof/Machine/Ops.lean ====
section
/-!
DEFINITION. The named operations over the registers: reading and writing them, emitting an event (00_scope.md R11), the work
of each command, the reset event (70_reset_and_hazards.md R105) and taking the next stimulus. The block has no memory
(20_memory.md R30) and takes no exception (60_exceptions.md R94, R99), so there is no operation for either.
-/

namespace Sys2Proof.Machine

/-! ### Reading -/

/-- The port group `p`. -/
def State.port (s : State) (p : Port) : PortGroup := s.ports[p]
/-- The filter cell `(p, j)` (R13). -/
def State.cell (s : State) (p : Port) (j : Pin) : Cell := (s.port p).cells[j]
/-- `HIST[p][j]` (R14). -/
def State.hist (s : State) (p : Port) (j : Pin) : Byte := (s.cell p j).hist
/-- `CNT[p][j]` (R15). -/
def State.cnt (s : State) (p : Port) (j : Pin) : Byte := (s.cell p j).cnt
/-- `FS[p][j]` (R16). -/
def State.fs (s : State) (p : Port) (j : Pin) : Bool := (s.cell p j).fs
/-- `LASTLO[p]` (R17). -/
def State.lastLo (s : State) (p : Port) : Nibble := (s.port p).lastLo
/-- `LASTHI[p]` (R17). -/
def State.lastHi (s : State) (p : Port) : Nibble := (s.port p).lastHi
/-- `DIR[p]` (R18). -/
def State.dir (s : State) (p : Port) : Direction := (s.port p).dir
/-- `OUT[p][j]` (R22). -/
def State.out (s : State) (p : Port) (j : Pin) : Bool := (s.port p).out[j]
/-- `MASK`, derived from `WIDTH` (R20). -/
def State.mask (s : State) : Byte := maskOf s.width
/-- `PACKLO(p)` (R75). -/
def State.packLo (s : State) (p : Port) : Nibble := Machine.packLo (s.port p)
/-- `PACKHI(p)` (R76). -/
def State.packHi (s : State) (p : Port) : Nibble := Machine.packHi (s.port p)
/-- `PACKBYTE(p)` (R77). -/
def State.packByte (s : State) (p : Port) : Byte := Machine.packByte (s.port p)

/-- Eight pin levels as a vector, bit `j` = pin `j` (R29, R32). -/
def wires (f : Pin → Bool) : Byte :=
  BitVec.ofBool (f 7) ++ BitVec.ofBool (f 6) ++ BitVec.ofBool (f 5) ++ BitVec.ofBool (f 4) ++
    BitVec.ofBool (f 3) ++ BitVec.ofBool (f 2) ++ BitVec.ofBool (f 1) ++ BitVec.ofBool (f 0)

/-- The visible wires `FS[p][7:0]`, observable between commands (R29). -/
def State.fsWires (s : State) (p : Port) : Byte := wires (s.fs p)
/-- The visible wires `OUT[p][7:0]`, observable between commands (R29). -/
def State.outWires (s : State) (p : Port) : Byte := wires (s.out p)

/-- The events of the whole run, in emission order (R118). -/
def State.allEvents (s : State) : List Event := s.eventsBefore ++ s.events

/-! ### Writing -/

/-- Replaces port group `p`, leaving the other two as they are. -/
def State.setPort (s : State) (p : Port) (g : PortGroup) : State := { s with ports := s.ports.set p g }
/-- `LASTLO[p] <- v`. -/
def State.setLastLo (s : State) (p : Port) (v : Nibble) : State := s.setPort p { s.port p with lastLo := v }
/-- `LASTHI[p] <- v`. -/
def State.setLastHi (s : State) (p : Port) (v : Nibble) : State := s.setPort p { s.port p with lastHi := v }
/-- `OUT[p][j] <- v`. -/
def State.setOut (s : State) (p : Port) (j : Pin) (v : Bool) : State :=
  s.setPort p { s.port p with out := (s.port p).out.set j v }
/-- `filter_step(p, j, raw)` on the registers (R62). -/
def State.filterStepAt (s : State) (p : Port) (j : Pin) (raw : Bool) : State :=
  s.setPort p { s.port p with cells := (s.port p).cells.set j (filterStep s.width s.delay (s.cell p j) raw) }
/-- `emit E`: appends an event to the output event sequence (R11). -/
def State.emit (s : State) (e : Event) : State := { s with events := s.events ++ [e] }

/-! ### The work of the commands -/

/-- INIT's work: the clamped width, the delay, and all 24 cells cleared whatever `DIR` says (R59). -/
def reloadConfig (w r : Byte) (s : State) : State :=
  { s with
    width := clampWidth w
    delay := r
    ports := Vector.ofFn fun p : Port => { s.port p with cells := Vector.replicate 8 Cell.cleared } }

/-- SETDIR's work: the three directions together (R60). -/
def latchDirections (d : BitVec 3) (s : State) : State :=
  { s with ports := Vector.ofFn fun p : Port => { s.port p with dir := dirOperand d p } }

/-- One scan pass over a port group: `filter_step` on each of the 8 cells with its bit of the raw value. R72 lets a model
do the 8 steps as a map. -/
def stepCells (width : Nibble) (delay : Byte) (raw : Byte) (g : PortGroup) : PortGroup :=
  { g with cells := Vector.ofFn fun j : Pin => filterStep width delay g.cells[j] (rawSample raw j) }

/-- SCAN's work: one pass over an Input port; an Output port is left frozen (R71, R73). -/
def scanPort (p : Port) (raw : Byte) (s : State) : State :=
  match s.dir p with
  | .input => s.setPort p (stepCells s.width s.delay raw (s.port p))
  | .output => s

/-- REPORT's work: both comparisons, then the updates, then the requests, Low before High (R78, R98). -/
def reportPort (p : Port) (s : State) : State :=
  let newLow := s.packLo p
  let newHigh := s.packHi p
  let isDirtyLow := dirtyLow (s.port p)
  let isDirtyHigh := dirtyHigh (s.port p)
  let s := if isDirtyLow then s.setLastLo p newLow else s
  let s := if isDirtyHigh then s.setLastHi p newHigh else s
  let s := if isDirtyLow then s.emit (.sendNibble p .low newLow) else s
  if isDirtyHigh then s.emit (.sendNibble p .high newHigh) else s

/-- RESYNC's work: the full byte if a resync is owed (R82). -/
def resyncPort (p : Port) (owed : Bool) (s : State) : State :=
  if owed then s.emit (.sendByte p (s.packByte p)) else s

/-- DISPATCH's work: the index check, then the direction check, then the latch and the activity signal (R88 to R91, R98). -/
def dispatchLevel (idx : Byte) (level : Bool) (s : State) : State :=
  match boundPin s.board idx with
  | none => s
  | some (p, j) =>
    match s.dir p with
    | .input => s
    | .output => (s.setOut p j level).emit .activity

/-! ### Reset and the command stream -/

/-- The reset event: every register to its reset value, no event emitted (R105, R106). The instance's parameters and what
the environment will do next are no registers; the events emitted so far are kept apart (notes/assumptions/5.md). -/
def applyReset (s : State) : State :=
  { State.resetWith s.board with pending := s.pending, eventsBefore := s.allEvents }

/-- What the environment does next, with the state in which it is done; nothing while the block is idle (R104). -/
def takeStimulus (s : State) : Option (Stimulus × State) :=
  match s.pending with
  | [] => none
  | x :: rest => some (x, { s with pending := rest })

/-- The state in which the caller presents the word next, before anything else it has announced. -/
def presentNext (s : State) (cmd : Word) : State := { s with pending := .command cmd :: s.pending }

/-- The state in which the caller also presents these words, in this order, after what it has announced (R25, R118). -/
def presentAll (s : State) (cmds : List Word) : State := { s with pending := s.pending ++ cmds.map .command }

end Sys2Proof.Machine
end

