-- ==== Sys2Proof/Machine/AccessoryDispatcher.lean ====
section
/-!
DEFINITION. The Accessory Dispatcher's command DISPATCH (45_accessory_dispatcher.md).
-/

namespace Sys2Proof.Machine

/-- `DISPATCH idx, level` (R88). -/
def execDispatch (idx : Byte) (level : Bool) (s : State) : Host.Outcome State Fault Refusal :=
  .next (dispatchLevel idx level s)

end Sys2Proof.Machine
end

