-- ==== Sys2Proof/Machine/ChangeNibbleEncoder.lean ====
section
/-!
DEFINITION. The Change-Nibble Encoder's command REPORT (43_change_nibble_encoder.md).
-/

namespace Sys2Proof.Machine

/-- `REPORT p` (R78); it does not read `DIR[p]`. -/
def execReport (p : Port) (s : State) : Host.Outcome State Fault Refusal := .next (reportPort p s)

end Sys2Proof.Machine
end

