-- ==== Sys2Proof/Machine/ConfigCommands.lean ====
section
/-!
DEFINITION. The configuration commands NOP, INIT and SETDIR (40_config_init.md).
-/

namespace Sys2Proof.Machine

/-- `NOP`: ignored (R57). -/
def execNop (s : State) : Host.Outcome State Fault Refusal := .next s

/-- `INIT w, r` (R59). -/
def execInit (w r : Byte) (s : State) : Host.Outcome State Fault Refusal := .next (reloadConfig w r s)

/-- `SETDIR d` (R60). -/
def execSetdir (d : BitVec 3) (s : State) : Host.Outcome State Fault Refusal := .next (latchDirections d s)

end Sys2Proof.Machine
end

