-- ==== Sys2Proof/Machine/PortScanner.lean ====
section
/-!
DEFINITION. The Port Scanner's command SCAN (42_port_scanner.md).
-/

namespace Sys2Proof.Machine

/-- `SCAN p, raw` (R71, R73). -/
def execScan (p : Port) (raw : Byte) (s : State) : Host.Outcome State Fault Refusal := .next (scanPort p raw s)

end Sys2Proof.Machine
end

