-- ==== Sys2Proof/Machine/ResyncPolicy.lean ====
section
/-!
DEFINITION. The Feedback Resync Policy's command RESYNC and the composite TICK (44_resync_and_tick.md).
-/

namespace Sys2Proof.Machine

/-- `RESYNC p, owed` (R82); it reads neither `DIR[p]` nor the last reported nibbles. -/
def execResync (p : Port) (owed : Bool) (s : State) : Host.Outcome State Fault Refusal := .next (resyncPort p owed s)

/-- `TICK p, raw, owed`: SCAN, then REPORT, then RESYNC, as one command (R86). -/
def execTick (p : Port) (raw : Byte) (owed : Bool) (s : State) : Host.Outcome State Fault Refusal :=
  .next (resyncPort p owed (reportPort p (scanPort p raw s)))

end Sys2Proof.Machine
end

