-- ==== Sys2Proof/Machine/Dispatch.lean ====
section
/-!
DEFINITION. One arm per command of the opcode map (30_encoding.md R45).
-/

namespace Sys2Proof.Machine

/-- What a decoded command does. -/
def exec (i : Instr) (s : State) : Host.Outcome State Fault Refusal :=
  match i with
  | .nop => Sys2Proof.Machine.execNop s
  | .init w r => Sys2Proof.Machine.execInit w r s
  | .setdir d => Sys2Proof.Machine.execSetdir d s
  | .scan p raw => Sys2Proof.Machine.execScan p raw s
  | .report p => Sys2Proof.Machine.execReport p s
  | .resync p owed => Sys2Proof.Machine.execResync p owed s
  | .tick p raw owed => Sys2Proof.Machine.execTick p raw owed s
  | .dispatch idx level => Sys2Proof.Machine.execDispatch idx level s

end Sys2Proof.Machine
end

