-- ==== Sys2Proof/Machine/Step.lean ====
section
/-!
DEFINITION. One step of the machine: what the environment does next, done completely (20_memory.md R36, R39).
-/

namespace Sys2Proof.Machine

/-- One step. A legal word is executed; a reserved word is ignored (30_encoding.md R47); the reset event is applied
(70_reset_and_hazards.md R105); with nothing presented the block is idle and holds its state (60_exceptions.md R104). -/
def step (s : State) : Host.Outcome State Fault Refusal :=
  match takeStimulus s with
  | none => .next s
  | some (.reset, s) => .next (applyReset s)
  | some (.command cmd, s) =>
    match decode cmd with
    | .command i => exec i s
    | .reserved _ => .next s

/-- The state in which the next step runs the opcode-table word: the caller presents it next. -/
def State.withFetchWord (s : State) (nbits w : Nat) : State := presentNext s (tableWord nbits w)

end Sys2Proof.Machine
end

