-- ==== Sys2Proof/WellFormed.lean ====
section
/-!
DEFINITION. The checks: operand ranges of the assembler's commands (30_encoding.md R53) and the size of a binding table
(00_scope.md R8). A decoded command needs none: its operands' types are exactly the ranges of R46 and R56.
-/

namespace Sys2Proof

/-- Every operand is in the range R53 gives it ("An assembler rejects an operand outside its range"). -/
def SourceCommand.wellFormed : SourceCommand → Bool
  | .nop => true
  | .init w r => decide (w ≤ 255) && decide (r ≤ 255)
  | .setdir d => decide (d ≤ 7)
  | .scan p raw => decide (p ≤ 2) && decide (raw ≤ 255)
  | .report p => decide (p ≤ 2)
  | .resync p owed => decide (p ≤ 2) && decide (owed ≤ 1)
  | .tick p raw owed => decide (p ≤ 2) && decide (raw ≤ 255) && decide (owed ≤ 1)
  | .dispatch idx level => decide (idx ≤ 255) && decide (level ≤ 1)

/-- `BIND_N` is at most 256 (R8). -/
def Board.wellFormed (b : Board) : Bool := decide (b.bind.length ≤ 256)

end Sys2Proof
end

