-- ==== Sys2Proof/Machine/Assembler.lean ====
section
/-!
DEFINITION. The assembler syntax and the pseudo-instructions (30_encoding.md R53, R54): from a line of text to command words.
Text is a list of characters. What R53 leaves open of the text is in notes/assumptions/8.md.
-/

namespace Sys2Proof.Machine

/-! ### From commands to words -/

/-- The number of a command word: the opcode's base and the operands, each shifted to its field (R53). -/
def wordNumber (base p f a b : Nat) : Nat := base + (p <<< 18) + (f <<< 16) + (a <<< 8) + b

/-- The word of a command with its operands in range, by the formulas of R53. -/
def sourceWord : SourceCommand → Nat
  | .nop => wordNumber 0x000000 0 0 0 0
  | .init w r => wordNumber 0x100000 0 0 w r
  | .setdir d => wordNumber 0x200000 0 0 0 d
  | .scan p raw => wordNumber 0x300000 p 0 0 raw
  | .report p => wordNumber 0x400000 p 0 0 0
  | .resync p owed => wordNumber 0x500000 p owed 0 0
  | .tick p raw owed => wordNumber 0x600000 p owed 0 raw
  | .dispatch idx level => wordNumber 0x700000 0 level 0 idx

/-- The commands a line stands for: itself, or the expansion of a pseudo-instruction (R54). -/
def expandLine : SourceLine → List SourceCommand
  | .command c => [c]
  | .tickall r0 r1 r2 owed => [.tick 0 r0 owed, .tick 1 r1 owed, .tick 2 r2 owed]
  | .on idx => [.dispatch idx 1]
  | .off idx => [.dispatch idx 0]
  | .inputs => [.setdir 0]

/-- The words of a line, or nothing where an operand is out of range: "An assembler rejects an operand outside its range;
it never produces a reserved word" (R53, U1). -/
def assembleLine (l : SourceLine) : Option (List Word) :=
  if (expandLine l).all SourceCommand.wellFormed then
    some ((expandLine l).map fun c => BitVec.ofNat 24 (sourceWord c))
  else none

/-- A decoded command written in the assembler syntax. -/
def sourceOf : Instr → SourceCommand
  | .nop => .nop
  | .init w r => .init w.toNat r.toNat
  | .setdir d => .setdir d.toNat
  | .scan p raw => .scan p.val raw.toNat
  | .report p => .report p.val
  | .resync p owed => .resync p.val owed.toNat
  | .tick p raw owed => .tick p.val raw.toNat owed.toNat
  | .dispatch idx level => .dispatch idx.toNat level.toNat

/-! ### From text to commands -/

/-- White space between the parts of a line. -/
def isBlank (c : Char) : Bool := c == ' ' || c == '\t' || c == '\r'

/-- The text without the white space around it. -/
def trimBlanks (cs : List Char) : List Char := ((cs.dropWhile isBlank).reverse.dropWhile isBlank).reverse

/-- The value of a digit in the given base. -/
def digitValue (base : Nat) (c : Char) : Option Nat :=
  let v :=
    if '0' ≤ c ∧ c ≤ '9' then c.toNat - '0'.toNat
    else if 'a' ≤ c ∧ c ≤ 'f' then c.toNat - 'a'.toNat + 10
    else if 'A' ≤ c ∧ c ≤ 'F' then c.toNat - 'A'.toNat + 10
    else base
  if v < base then some v else none

/-- A non-empty string of digits in the given base. -/
def digitsValue (base : Nat) : List Char → Option Nat
  | [] => none
  | c :: cs =>
    (c :: cs).foldl (fun acc c => acc.bind fun n => (digitValue base c).map fun v => n * base + v) (some 0)

/-- A number: "decimal, `0x` hexadecimal or `0b` binary" (R53). -/
def numberValue : List Char → Option Nat
  | '0' :: 'x' :: cs => digitsValue 16 cs
  | '0' :: 'b' :: cs => digitsValue 2 cs
  | cs => digitsValue 10 cs

/-- The pieces of a text between the separators. -/
def pieces (sep : Char) : List Char → List (List Char)
  | [] => [[]]
  | c :: cs =>
    match pieces sep cs with
    | [] => [[c]]
    | p :: ps => if c == sep then [] :: p :: ps else (c :: p) :: ps

/-- Every element, or nothing when one is missing. -/
def allPresent : List (Option Nat) → Option (List Nat)
  | [] => some []
  | none :: _ => none
  | some n :: rest => (allPresent rest).map (n :: ·)

/-- The operands of a line: none, or numbers separated by commas (R53). -/
def operandValues (cs : List Char) : Option (List Nat) :=
  match trimBlanks cs with
  | [] => some []
  | text => allPresent ((pieces ',' text).map fun piece => numberValue (trimBlanks piece))

/-- The line a mnemonic and its operands make; nothing for an unknown mnemonic or a wrong number of operands. -/
def lineOf (mnemonic : List Char) (operands : List Nat) : Option SourceLine :=
  match operands with
  | [] =>
    if mnemonic = "NOP".toList then some (.command .nop)
    else if mnemonic = "INPUTS".toList then some .inputs
    else none
  | [x] =>
    if mnemonic = "SETDIR".toList then some (.command (.setdir x))
    else if mnemonic = "REPORT".toList then some (.command (.report x))
    else if mnemonic = "ON".toList then some (.on x)
    else if mnemonic = "OFF".toList then some (.off x)
    else none
  | [x, y] =>
    if mnemonic = "INIT".toList then some (.command (.init x y))
    else if mnemonic = "SCAN".toList then some (.command (.scan x y))
    else if mnemonic = "RESYNC".toList then some (.command (.resync x y))
    else if mnemonic = "DISPATCH".toList then some (.command (.dispatch x y))
    else none
  | [x, y, z] => if mnemonic = "TICK".toList then some (.command (.tick x y z)) else none
  | [r0, r1, r2, owed] => if mnemonic = "TICKALL".toList then some (.tickall r0 r1 r2 owed) else none
  | _ => none

/-- The words of one line of text: a blank line or a comment has none, a line that R53 does not allow is rejected. -/
def assembleTextLine (cs : List Char) : Option (List Word) :=
  match trimBlanks (cs.takeWhile (· != ';')) with
  | [] => some []
  | text =>
    match operandValues (text.dropWhile fun c => !isBlank c) with
    | none => none
    | some operands => (lineOf (text.takeWhile fun c => !isBlank c) operands).bind assembleLine

/-- The words of a program text, one command per line; one rejected line rejects the program (R53). -/
def assembleLines : List (List Char) → Option (List Word)
  | [] => some []
  | l :: ls => (assembleTextLine l).bind fun ws => (assembleLines ls).map (ws ++ ·)

/-- The words of a program text. -/
def assembleText (cs : List Char) : Option (List Word) := assembleLines (pieces '\n' cs)

end Sys2Proof.Machine
end

