-- ==== Sys2Proof/Machine/Events.lean ====
section
/-!
DEFINITION. The event word (30_encoding.md R50).
-/

namespace Sys2Proof.Machine

/-- The bit of the nibble selector: 0 = Low, 1 = High (R7, R50). -/
def Which.bit : Which → Bool
  | .low => false
  | .high => true

/-- The nibble selector of a bit. -/
def Which.ofBit : Bool → Which
  | false => .low
  | true => .high

/-- The event word of an event: `kind @ ep @ data` (R50). -/
def eventWord : Event → EventWord
  | .sendNibble p which v => (0 : BitVec 2) ++ portBits p ++ (0 : BitVec 3) ++ BitVec.ofBool which.bit ++ v
  | .sendByte p v => (1 : BitVec 2) ++ portBits p ++ v
  | .activity => (2 : BitVec 2) ++ (0 : BitVec 2) ++ (0 : BitVec 8)

/-- The event a word stands for; nothing for a word that no event produces (`kind == 3`, `ep == 3`, a fixed bit that
differs; R50, U5). -/
def eventOfWord (evt : EventWord) : Option Event :=
  match (evt.extractLsb 11 10).toNat, portOfBits (evt.extractLsb 9 8) with
  | 0, some p =>
    if evt.extractLsb 7 5 == 0 then
      some (.sendNibble p (Which.ofBit (evt.getLsbD 4)) (evt.extractLsb 3 0))
    else none
  | 1, some p => some (.sendByte p (evt.extractLsb 7 0))
  | 2, some p => if p == 0 && evt.extractLsb 7 0 == 0 then some .activity else none
  | _, _ => none

end Sys2Proof.Machine
end

