-- ==== Sys2Proof/Safety.lean ====
section
/-!
DEFINITION. What claims speak of: the state invariants (10_state.md R27), which parts of a state are as they were, and what a
caller must respect (70_reset_and_hazards.md R108 to R115). None of it is checked by the block.
-/

namespace Sys2Proof.Machine

/-! ### Parts of a state that are as they were -/

/-- The 8 cells of port `p` are as they were. -/
def sameCells (s t : State) (p : Port) : Prop :=
  ∀ j, t.hist p j = s.hist p j ∧ t.cnt p j = s.cnt p j ∧ t.fs p j = s.fs p j

/-- The last reported nibbles of port `p` are as they were. -/
def sameLast (s t : State) (p : Port) : Prop := t.lastLo p = s.lastLo p ∧ t.lastHi p = s.lastHi p

/-- The direction of port `p` is as it was. -/
def sameDir (s t : State) (p : Port) : Prop := t.dir p = s.dir p

/-- The output latches of port `p` are as they were. -/
def sameOut (s t : State) (p : Port) : Prop := ∀ j, t.out p j = s.out p j

/-- The whole port group `p` is as it was. -/
def samePort (s t : State) (p : Port) : Prop := sameCells s t p ∧ sameLast s t p ∧ sameDir s t p ∧ sameOut s t p

/-- `WIDTH` and `DELAY` are as they were. -/
def sameWindow (s t : State) : Prop := t.width = s.width ∧ t.delay = s.delay

/-- No event was emitted. -/
def noEvent (s t : State) : Prop := t.events = s.events ∧ t.eventsBefore = s.eventsBefore

/-- Exactly these events were emitted, in this order. -/
def emitted (s t : State) (es : List Event) : Prop := t.events = s.events ++ es ∧ t.eventsBefore = s.eventsBefore

/-- The instance's parameters and what the environment will do are as they were. -/
def sameHost (s t : State) : Prop := t.board = s.board ∧ t.pending = s.pending

/-! ### Invariants (R27) -/

/-- R27 item 1: `1 <= WIDTH <= 8`. -/
def widthLegal (s : State) : Prop := 1 ≤ s.width.toNat ∧ s.width.toNat ≤ 8

/-- R27 item 2: no countdown exceeds `DELAY`. -/
def countsBounded (s : State) : Prop := ∀ p j, (s.cnt p j).toNat ≤ s.delay.toNat

/-- R27 item 3: if `DELAY >= 1`, a cell that reads true has a countdown of at least 1. -/
def heldCellsCount (s : State) : Prop := 1 ≤ s.delay.toNat → ∀ p j, s.fs p j = true → 1 ≤ (s.cnt p j).toNat

/-- The value carried by the last `SendNibble` for that port and nibble, or 0x0 if there is none. -/
def lastSent (p : Port) (which : Which) (es : List Event) : Nibble :=
  es.foldl (fun acc e =>
    match e with
    | .sendNibble q k v => if q = p ∧ k = which then v else acc
    | _ => acc) 0x0

/-- R27 item 4: the last reported nibbles are the values last sent since reset. -/
def lastIsSent (s : State) : Prop :=
  ∀ p, s.lastLo p = lastSent p .low s.events ∧ s.lastHi p = lastSent p .high s.events

/-- The state invariants of R27. -/
def Invariants (s : State) : Prop := widthLegal s ∧ countsBounded s ∧ heldCellsCount s ∧ lastIsSent s

/-- The last reported nibbles of port `p` are the pack of its filtered states (R80). -/
def reportedNow (s : State) (p : Port) : Prop := s.lastLo p = s.packLo p ∧ s.lastHi p = s.packHi p

/-! ### Runs -/

/-- Commands executed one after the other, each on the state the one before it left (R39). -/
def execAll : List Instr → State → Host.Outcome State Fault Refusal
  | [], s => .next s
  | i :: is, s =>
    match exec i s with
    | .next t => execAll is t
    | .fault r => .fault r
    | .refused r => .refused r

/-! ### The caller's discipline (not checked by the block) -/

/-- Where a port is in the current tick of the caller (R109). -/
inductive TickPhase where
  /-- Not yet served in this tick. -/
  | waiting
  /-- Scanned, not yet reported. -/
  | scanned
  /-- Reported, its resync not yet checked. -/
  | reported
  /-- Served in this tick, while another port is not. -/
  | served
deriving DecidableEq, Repr

/-- The phases of the three ports. -/
abbrev TickPhases := Vector TickPhase 3

/-- Between two ticks: no port is being served (R112, R113). -/
def betweenTicks : TickPhases := Vector.replicate 3 .waiting

/-- Port `p` is served: its phase, or the end of the tick when it was the last one. -/
def finishPort (ph : TickPhases) (p : Port) : TickPhases :=
  let ph := ph.set p .served
  if ph = Vector.replicate 3 .served then betweenTicks else ph

/-- One command under the discipline: SCAN, REPORT, RESYNC or one TICK for each port in each tick (R86, R109, R114, R115),
INIT and SETDIR only between ticks (R112, R113), NOP and DISPATCH anywhere (R109). Nothing where the command breaks it. -/
def advanceTick (ph : TickPhases) : Instr → Option TickPhases
  | .nop => some ph
  | .init _ _ => if ph = betweenTicks then some ph else none
  | .setdir _ => if ph = betweenTicks then some ph else none
  | .scan p _ => if ph[p] = .waiting then some (ph.set p .scanned) else none
  | .report p => if ph[p] = .scanned then some (ph.set p .reported) else none
  | .resync p _ => if ph[p] = .reported then some (finishPort ph p) else none
  | .tick p _ _ => if ph[p] = .waiting then some (finishPort ph p) else none
  | .dispatch _ _ => some ph

/-- A command list that keeps the discipline from the given phases, and the phases it ends in. -/
def advanceTicks : TickPhases → List Instr → Option TickPhases
  | ph, [] => some ph
  | ph, i :: is => (advanceTick ph i).bind fun ph => advanceTicks ph is

/-- The port that a command of a tick serves; nothing for a command that is no part of a tick (R87, R109). -/
def tickPort : Instr → Option Port
  | .scan p _ | .report p | .resync p _ | .tick p _ _ => some p
  | .nop | .init _ _ | .setdir _ | .dispatch _ _ => none

/-- Is the command part of a tick? -/
def isTickCommand (i : Instr) : Bool := (tickPort i).isSome

/-- Every port that the open tick has already reported has its last reported nibbles equal to the pack of its filtered
states (R109). -/
def nothingUnreported (ph : TickPhases) (s : State) : Prop :=
  ∀ p : Port, ph[p] = .reported ∨ ph[p] = .served → reportedNow s p

/-- Is the command an INIT? -/
def isInit : Instr → Bool
  | .init _ _ => true
  | .nop | .setdir _ | .scan _ _ | .report _ | .resync _ _ | .tick _ _ _ | .dispatch _ _ => false

/-- Is the command a SETDIR? -/
def isSetdir : Instr → Bool
  | .setdir _ => true
  | .nop | .init _ _ | .scan _ _ | .report _ | .resync _ _ | .tick _ _ _ | .dispatch _ _ => false

/-- The boot sequence: an INIT and a SETDIR, in either order, before the first tick (R108). -/
def bootsBeforeTicks (is : List Instr) : Bool :=
  let boot := is.takeWhile fun i => !isTickCommand i
  boot.any isInit && boot.any isSetdir

end Sys2Proof.Machine
end

