-- ==== Sys2Proof/Certificates/Slice0/Obligations.lean ====
section
/-!
DEFINITION. The statements for the provers. Where a clause rests on a choice of the spec's own (a decision D<n>) or on one of the
model's, the docstring says so; every statement about a state holds in all states, reached or not.
-/

open Sys2Proof Sys2Proof.Machine

/-! ### Encoding -/

/-- Words written out from the spec's encodings, one per command, and five reserved ones (95_test_vectors.md, 2.7). The
encodings are the spec's own (decision D2). -/
def Obligations.VectorWordsDecode : Prop :=
  decode 0x000000 = .command .nop ∧ decode 0x100302 = .command (.init 3 2) ∧ decode 0x200004 = .command (.setdir 4) ∧
  decode 0x3400A5 = .command (.scan 1 0xA5) ∧ decode 0x480000 = .command (.report 2) ∧
  decode 0x590000 = .command (.resync 2 true) ∧ decode 0x6500FF = .command (.tick 1 0xFF true) ∧
  decode 0x7000FF = .command (.dispatch 255 false) ∧
  decode 0x3C00A5 = .reserved .port ∧ decode 0x5A0000 = .reserved .mustBeZero ∧ decode 0x720005 = .reserved .mustBeZero ∧
  decode 0x200008 = .reserved .mustBeZero ∧ decode 0x800000 = .reserved .opcode

/-- Decoding an encoded command gives it back, with every operand at every value its field admits (R44, R46, R55; the
layout is the spec's decision D2). -/
def Obligations.DecodeOfEncode : Prop := ∀ i : Instr, decode (encode i) = .command i

/-- A legal word is the encoding of what it decodes to: no bit of it is dropped (R44, R55; decision D2). -/
def Obligations.EncodeOfDecode : Prop := ∀ (cmd : Word) (i : Instr), decode cmd = .command i → encode i = cmd

/-- The decoder agrees with the masks and matches of the opcode map: a word decodes to a command of opcode `k` exactly when
row `k` selects it (R45; decision D2). -/
def Obligations.DecodeFollowsOpcodeMap : Prop := ∀ (cmd : Word) (k : Nat),
  (∃ i, decode cmd = .command i ∧ opcodeOf i = k) ↔ ∃ row, opcodeMap[k]? = some row ∧ row.selects cmd = true

/-- A word is reserved exactly when its opcode is 0x8 to 0xF, a must-be-zero bit of its format is 1, or its format has a `p`
field and `p == 3` (R44, R47; decisions D2, D17). -/
def Obligations.ReservedWordsExactly : Prop := ∀ cmd : Word,
  (∃ why, decode cmd = .reserved why) ↔
    8 ≤ (cmd.extractLsb 23 20).toNat ∨
    (∃ zeros, [0x0FFFFF#24, 0x0F0000#24, 0x0FFFF8#24, 0x03FF00#24, 0x03FFFF#24, 0x02FFFF#24, 0x02FF00#24,
        0x0EFF00#24][(cmd.extractLsb 23 20).toNat]? = some zeros ∧ cmd &&& zeros ≠ 0) ∨
    ((cmd.extractLsb 23 20).toNat ∈ [3, 4, 5, 6] ∧ cmd.extractLsb 19 18 = 3)

/-- The census of legal words by opcode: 1, 65 536, 8, 768, 3, 6, 1 536 and 512 (R48, which the spec marks as derived). -/
def Obligations.LegalWordCensus : Prop := ∀ k count : Nat,
  [1, 65536, 8, 768, 3, 6, 1536, 512][k]? = some count →
    ∃ words : List Word, words.Nodup ∧ words.length = count ∧
      ∀ cmd, cmd ∈ words ↔ ∃ i, decode cmd = .command i ∧ opcodeOf i = k

/-- The words of the assembler syntax by the formulas of R53, written out, are the encodings by fields of R43 and R44
(decisions D2, D27). -/
def Obligations.EncodingFormulas : Prop :=
  (encode .nop).toNat = 0x000000 ∧
  (∀ w r, (encode (.init w r)).toNat = 0x100000 + (w.toNat <<< 8) + r.toNat) ∧
  (∀ d, (encode (.setdir d)).toNat = 0x200000 + d.toNat) ∧
  (∀ p raw, (encode (.scan p raw)).toNat = 0x300000 + (p.val <<< 18) + raw.toNat) ∧
  (∀ p, (encode (.report p)).toNat = 0x400000 + (p.val <<< 18)) ∧
  (∀ p owed, (encode (.resync p owed)).toNat = 0x500000 + (p.val <<< 18) + (owed.toNat <<< 16)) ∧
  (∀ p raw owed, (encode (.tick p raw owed)).toNat =
    0x600000 + (p.val <<< 18) + (owed.toNat <<< 16) + raw.toNat) ∧
  (∀ idx level, (encode (.dispatch idx level)).toNat = 0x700000 + (level.toNat <<< 16) + idx.toNat)

/-- "An assembler rejects an operand outside its range; it never produces a reserved word" (R53, decision D27): a line is
rejected exactly when a command it stands for has an operand out of range, and otherwise its words decode to exactly the
commands it stands for; every decoded command can be written as a line that assembles to its own encoding. -/
def Obligations.AssemblerRejectsOrIsExact : Prop := (∀ l : SourceLine,
  (assembleLine l = none ↔ ∃ c ∈ expandLine l, c.wellFormed = false) ∧
  ∀ words, assembleLine l = some words →
    ∃ is : List Instr, words.map decode = is.map .command ∧ is.map sourceOf = expandLine l) ∧
  ∀ i : Instr, assembleLine (.command (sourceOf i)) = some [encode i]

/-- The pseudo-instructions' words (R54, decision D27). -/
def Obligations.PseudoInstructionWords : Prop := ∀ (r0 r1 r2 idx : Byte) (owed : Bool),
  assembleLine (.tickall r0.toNat r1.toNat r2.toNat owed.toNat) =
      some [encode (.tick 0 r0 owed), encode (.tick 1 r1 owed), encode (.tick 2 r2 owed)] ∧
    assembleLine (.on idx.toNat) = some [encode (.dispatch idx true)] ∧
    assembleLine (.off idx.toNat) = some [encode (.dispatch idx false)] ∧
    assembleLine .inputs = some [encode (.setdir 0)]

/-- The event words by the formulas of R50, with the selector bit written out: 0 for Low, 1 for High (R7); `kind == 3` and
`ep == 3` are never produced (U5; decision D16). -/
def Obligations.EventWordFormulas : Prop :=
  (∀ p v, (eventWord (.sendNibble p .low v)).toNat = 0x000 + p.val * 2 ^ 8 + 0 * 2 ^ 4 + v.toNat) ∧
  (∀ p v, (eventWord (.sendNibble p .high v)).toNat = 0x000 + p.val * 2 ^ 8 + 1 * 2 ^ 4 + v.toNat) ∧
  (∀ p v, (eventWord (.sendByte p v)).toNat = 0x400 + p.val * 2 ^ 8 + v.toNat) ∧
  eventWord .activity = 0x800 ∧
  ∀ e, (eventWord e).extractLsb 11 10 ≠ 3 ∧ (eventWord e).extractLsb 9 8 ≠ 3

/-- The event word determines the event (R50; decision D16), and every word that is read as an event is that event's word.
The second clause is the model's choice: R50 does not say what a reader answers for a word that no event has, and the model's
reader answers nothing (notes/assumptions/23.md). -/
def Obligations.EventWordRoundTrip : Prop :=
  (∀ e, eventOfWord (eventWord e) = some e) ∧ ∀ evt e, eventOfWord evt = some e → eventWord e = evt

/-! ### The step -/

/-- When the word presented next decodes to a command, the step is that command on the state without the word (R42, R56).
That presented words stand in a list of the state is the model's choice (notes/assumptions/4.md). -/
def Obligations.StepRunsDecodedCommand : Prop := ∀ (s : State) (cmd : Word) (rest : List Stimulus) (i : Instr),
  s.pending = .command cmd :: rest → decode cmd = .command i → step s = exec i { s with pending := rest }

/-- A reserved word is ignored: no register changes, no event is emitted, and the next word is ready to be taken (R47,
decision D17; the model takes the spec's first choice, notes/assumptions/7.md). -/
def Obligations.StepIgnoresReservedWord : Prop :=
  ∀ (s : State) (cmd : Word) (rest : List Stimulus) (why : Reserved),
    s.pending = .command cmd :: rest → decode cmd = .reserved why →
      ∃ t, step s = .next t ∧ (∀ p, samePort s t p) ∧ sameWindow s t ∧ noEvent s t ∧ t.board = s.board ∧ t.pending = rest

/-- The reset event: every register to its reset value, no event emitted, whatever the state was (R105, R106). The values
of LASTLO, LASTHI, DIR, OUT and the choice of WIDTH are the spec's decisions D6 to D9; that the earlier events of the run
are kept apart is the model's choice (notes/assumptions/5.md). -/
def Obligations.ResetEventResets : Prop := ∀ (s : State) (rest : List Stimulus),
  s.pending = .reset :: rest →
    ∃ t, step s = .next t ∧
      (∀ p j, t.hist p j = 0x00 ∧ t.cnt p j = 0x00 ∧ t.fs p j = false ∧ t.out p j = false) ∧
      (∀ p, t.lastLo p = 0x0 ∧ t.lastHi p = 0x0 ∧ t.dir p = .input) ∧
      t.width = 3 ∧ t.delay = s.board.resetDelay ∧ t.board = s.board ∧ t.pending = rest ∧
      t.events = [] ∧ t.allEvents = s.allEvents

/-- "Between commands the block is idle and holds its state" (R104). That a step with nothing presented is this idling is
the model's choice (notes/assumptions/4.md). -/
def Obligations.IdleStepHoldsState : Prop := ∀ s : State, s.pending = [] → step s = .next s

/-- No command and no step faults or is refused: every command completes, and what the caller presents next is as it was
(R94). That this leaves no fault and no refusal at all is the model's inference (notes/assumptions/6.md); that a step also
answers a next state with nothing presented, and on a reserved word, which R47 lets a model refuse, are the model's choices
(notes/assumptions/4.md, notes/assumptions/7.md). -/
def Obligations.EveryCommandCompletes : Prop :=
  (∀ (i : Instr) (s : State), ∃ t, exec i s = .next t ∧ t.pending = s.pending) ∧ ∀ s : State, ∃ t, step s = .next t

/-- A word of the opcode table placed where the step takes its next command is run by the next step, on the state it was
placed in (notes/assumptions/18.md: the model's choice of where that is). -/
def Obligations.FetchWordRunsNext : Prop := ∀ (s : State) (nbits w : Nat) (i : Instr),
  decodeTableWord nbits w = some i → step (s.withFetchWord nbits w) = exec i s

/-- The state after reset, for every value of the open parameters (R28, R106). The values of LASTLO, LASTHI, DIR, OUT and
the choice of WIDTH are the spec's decisions D6 to D9 (notes/assumptions/9.md). -/
def Obligations.ResetStateRegisters : Prop :=
  (∀ p j, State.reset.hist p j = 0x00 ∧ State.reset.cnt p j = 0x00 ∧ State.reset.fs p j = false ∧
    State.reset.out p j = false) ∧
  (∀ p, State.reset.lastLo p = 0x0 ∧ State.reset.lastHi p = 0x0 ∧ State.reset.dir p = .input) ∧
  State.reset.width = 3 ∧ State.reset.mask = 0x07 ∧ State.reset.delay = Config.resetDelay ∧ State.reset.events = []

/-! ### NOP, INIT, SETDIR -/

/-- NOP leaves the state unchanged and emits nothing (R57; that the word exists is decision D24). -/
def Obligations.NopChangesNothing : Prop := encode .nop = 0x000000 ∧ ∀ s : State, exec .nop s = .next s

/-- `clamp_w` (R58; the clamp of values above 8 and its place in the block are decision D4). -/
def Obligations.WindowClamp : Prop := ∀ w : Byte,
  (w.toNat = 0 → clampWidth w = 1) ∧ (1 ≤ w.toNat ∧ w.toNat ≤ 8 → (clampWidth w).toNat = w.toNat) ∧
    (9 ≤ w.toNat → clampWidth w = 8)

/-- INIT: the clamped width, the delay, all 24 cells cleared, and nothing else (R59; what it leaves alone is decision
D10). -/
def Obligations.InitReloadsAndClears : Prop := ∀ (s : State) (w r : Byte),
  ∃ t, exec (.init w r) s = .next t ∧ t.width = clampWidth w ∧ t.delay = r ∧
    (∀ p j, t.hist p j = 0x00 ∧ t.cnt p j = 0x00 ∧ t.fs p j = false) ∧
    (∀ p, sameLast s t p ∧ sameDir s t p ∧ sameOut s t p) ∧ noEvent s t ∧ sameHost s t

/-- SETDIR: bit `p` of the operand becomes `DIR[p]`, 0 = Input, 1 = Output, for the three ports together, and nothing else
changes (R60; decisions D7, D11). -/
def Obligations.SetdirLatchesDirections : Prop := ∀ (s : State) (d : BitVec 3),
  ∃ t, exec (.setdir d) s = .next t ∧
    (∀ p : Port, t.dir p = if d.getLsbD p.val then .output else .input) ∧
    (∀ p, sameCells s t p ∧ sameLast s t p ∧ sameOut s t p) ∧ sameWindow s t ∧ noEvent s t ∧ sameHost s t

/-- INIT and SETDIR may be issued in either order (R108 "Steps 1 and 2 may be in either order", decision D25). -/
def Obligations.BootOrderIrrelevant : Prop := ∀ (s : State) (w r : Byte) (d : BitVec 3),
  execAll [.init w r, .setdir d] s = execAll [.setdir d, .init w r] s

/-! ### The filter cell and SCAN -/

/-- `MASK` has exactly `WIDTH` low bits set (R20). -/
def Obligations.MaskFromWidth : Prop := ∀ s : State, widthLegal s →
  s.mask.toNat = 2 ^ s.width.toNat - 1 ∧ ∀ k, k < 8 → s.mask.getLsbD k = decide (k < s.width.toNat)

/-- `filter_step(p, j, raw)` on the registers: the three steps in their order, over the cell's own registers, `DELAY` and
`MASK`; no other register is written and no event is emitted (R62; read in its order, as R63 and decision D12 say). -/
def Obligations.FilterStepRegisters : Prop := ∀ (s : State) (p : Port) (j : Pin) (raw : Bool),
  let t := s.filterStepAt p j raw
  t.hist p j = ((s.hist p j <<< 1) ||| (BitVec.ofBool raw).zeroExtend 8) ∧
  t.cnt p j = (if raw = true then s.delay else if s.cnt p j > 0 then s.cnt p j - 1 else s.cnt p j) ∧
  t.fs p j = (if s.fs p j = false then decide (t.hist p j &&& s.mask = s.mask) else decide (t.cnt p j ≠ 0)) ∧
  (∀ q k, (q, k) ≠ (p, j) → t.hist q k = s.hist q k ∧ t.cnt q k = s.cnt q k ∧ t.fs q k = s.fs q k) ∧
  (∀ q, sameLast s t q ∧ sameDir s t q ∧ sameOut s t q) ∧ sameWindow s t ∧ noEvent s t ∧ sameHost s t

/-- SCAN: on an Input port each of the 8 cells takes its `filter_step` with its own bit of the raw value, on an Output port
nothing nothing happens; it emits no event and writes nothing but the 8 cells of its port; with `p == 3` the word is reserved
(R71; the word is decision D2, the frozen Output port D11, the ignored `p == 3` D17). -/
def Obligations.ScanStepsItsPort : Prop := ∀ (s : State) (p : Port) (raw : Byte),
  (encode (.scan p raw)).toNat = 0x300000 + p.val * 2 ^ 18 + raw.toNat ∧
  ∃ t, exec (.scan p raw) s = .next t ∧
    (s.dir p = .input → ∀ j : Pin, t.cell p j = filterStep s.width s.delay (s.cell p j) (raw.getLsbD j.val)) ∧
    (s.dir p = .output → t = s) ∧
    (∀ q, q ≠ p → sameCells s t q) ∧ (∀ q, sameLast s t q ∧ sameDir s t q ∧ sameOut s t q) ∧
    sameWindow s t ∧ noEvent s t ∧ sameHost s t ∧
  ∀ cmd : Word, cmd.extractLsb 23 20 = 0x3 → cmd.extractLsb 19 18 = 3 → ∃ why, decode cmd = .reserved why

/-- "every order of the 8 steps, and doing them all at once, gives the same result" (R72). -/
def Obligations.ScanPinOrderIrrelevant : Prop := ∀ (s : State) (p : Port) (raw : Byte) (order : List Pin),
  s.dir p = .input → order.Nodup → (∀ j, j ∈ order) →
    exec (.scan p raw) s = .next (order.foldl (fun t j => t.filterStepAt p j (raw.getLsbD j.val)) s)

/-- A run of SCANs of an Input port is, for each pin, the run of its cell over that pin's samples (R62, R71): what the laws
of the cell below say holds of the scanned registers. -/
def Obligations.ScansRunEveryCell : Prop := ∀ (s : State) (p : Port) (raws : List Byte), s.dir p = .input →
  ∃ t, execAll (raws.map (.scan p)) s = .next t ∧
    (∀ j : Pin, t.cell p j = filterRun s.width s.delay (s.cell p j) (raws.map fun raw => raw.getLsbD j.val)) ∧
    noEvent s t

/-- Assertion (R64, derived by the spec from R62): a released cell reads true after a tick exactly when the `WIDTH` most
recent samples are all true, samples from before INIT or reset counting as false. -/
def Obligations.AssertionAfterFullWindow : Prop :=
  ∀ (width : Nibble) (delay : Byte) (samples : List Bool) (raw : Bool),
    1 ≤ width.toNat → width.toNat ≤ 8 → (filterRun width delay Cell.cleared samples).fs = false →
      ((filterRun width delay Cell.cleared (samples ++ [raw])).fs = true ↔
        ∀ b ∈ ((samples ++ [raw]).reverse ++ List.replicate 8 false).take width.toNat, b = true)

/-- Release (R65, derived by the spec from R62): after the last true sample of an asserted cell, `CNT` counts down from
`DELAY` and the cell falls on exactly the `DELAY`-th consecutive false sample. -/
def Obligations.ReleaseAfterDelay : Prop := ∀ (width : Nibble) (delay : Byte) (c : Cell) (k : Nat),
  1 ≤ delay.toNat → (filterStep width delay c true).fs = true → k ≤ delay.toNat →
    let c' := filterRun width delay (filterStep width delay c true) (List.replicate k false)
    c'.cnt.toNat = delay.toNat - k ∧ c'.fs = decide (k < delay.toNat)

/-- Hold refresh (R66, derived by the spec from R62): after a true sample, a cell that reads true never falls while no
`DELAY` consecutive samples are all false. -/
def Obligations.HoldWhileRefreshed : Prop :=
  ∀ (width : Nibble) (delay : Byte) (c : Cell) (samples : List Bool),
    1 ≤ delay.toNat → (filterStep width delay c true).fs = true →
      ¬ List.replicate delay.toNat false <:+: samples →
        (filterRun width delay (filterStep width delay c true) samples).fs = true

/-- Noise rejection (R67, derived by the spec from R64): runs of true samples shorter than `WIDTH` never assert a cleared
cell; with `WIDTH >= 2`, neither does any sequence without two consecutive true samples. -/
def Obligations.ShortRunsNeverAssert : Prop := ∀ (width : Nibble) (delay : Byte) (samples : List Bool),
  1 ≤ width.toNat → width.toNat ≤ 8 →
    (¬ List.replicate width.toNat true <:+: samples → (filterRun width delay Cell.cleared samples).fs = false) ∧
    (2 ≤ width.toNat → ¬ [true, true] <:+: samples → (filterRun width delay Cell.cleared samples).fs = false)

/-- `DELAY == 0` (R68, derived by the spec from R62; that 0 is accepted is decision D5): under a constantly true input a
cleared cell reads true after ticks `WIDTH`, `WIDTH + 2`, ... and after no other. -/
def Obligations.ZeroDelayFlickers : Prop := ∀ (width : Nibble) (n : Nat), 1 ≤ width.toNat → width.toNat ≤ 8 →
  (filterRun width 0 Cell.cleared (List.replicate n true)).fs = decide (width.toNat ≤ n ∧ (n - width.toNat) % 2 = 0)

/-- Bits of `HIST` at and above `WIDTH` never influence `FS` (R69, derived by the spec from R20 and R62): two cells that
differ only there behave alike under every sequence of samples. -/
def Obligations.OldSamplesNeverMatter : Prop :=
  ∀ (width : Nibble) (delay : Byte) (c c' : Cell) (samples : List Bool),
    width.toNat ≤ 8 → (∀ k, k < width.toNat → c'.hist.getLsbD k = c.hist.getLsbD k) → c'.cnt = c.cnt → c'.fs = c.fs →
      (filterRun width delay c' samples).fs = (filterRun width delay c samples).fs ∧
      (filterRun width delay c' samples).cnt = (filterRun width delay c samples).cnt

/-- Minimum widths for `DELAY >= 1` (R70 a and b, derived by the spec): a cell that has just asserted reads true for the
next `DELAY - 1` ticks whatever their samples, and one that has just released reads false for the next `WIDTH - 1`. -/
def Obligations.NoFlickerOnceChanged : Prop :=
  ∀ (width : Nibble) (delay : Byte) (c : Cell) (raw : Bool) (samples : List Bool),
    1 ≤ width.toNat → width.toNat ≤ 8 → 1 ≤ delay.toNat →
      (c.fs = false → (filterStep width delay c raw).fs = true → samples.length < delay.toNat →
        (filterRun width delay (filterStep width delay c raw) samples).fs = true) ∧
      (c.fs = true → (filterStep width delay c raw).fs = false → samples.length < width.toNat →
        (filterRun width delay (filterStep width delay c raw) samples).fs = false)

/-! ### REPORT, RESYNC, TICK -/

/-- `PACKLO` and `PACKHI`: pins 4 to 7 and 0 to 3, the lowest pin in the most significant bit (R75, R76; the order is the
spec's decision D21). -/
def Obligations.PackedNibbles : Prop := ∀ (s : State) (p : Port),
  s.packLo p = BitVec.ofBool (s.fs p 4) ++ BitVec.ofBool (s.fs p 5) ++ BitVec.ofBool (s.fs p 6) ++
    BitVec.ofBool (s.fs p 7) ∧
  s.packHi p = BitVec.ofBool (s.fs p 0) ++ BitVec.ofBool (s.fs p 1) ++ BitVec.ofBool (s.fs p 2) ++
    BitVec.ofBool (s.fs p 3)

/-- `PACKBYTE` is `PACKHI @ PACKLO`; bit `7-j` of it is `FS[p][j]`; it is the visible vector `FS[p][7:0]` with its bits
reversed (R77). The places of the bits rest on the order of R75 and R76, the spec's decision D21 (notes/assumptions/12.md), and
on the order of the wires, decision D26. -/
def Obligations.PackByteReversesWires : Prop := ∀ (s : State) (p : Port),
  s.packByte p = s.packHi p ++ s.packLo p ∧ (s.packByte p).toNat = (s.packHi p).toNat * 2 ^ 4 + (s.packLo p).toNat ∧
  (∀ j : Pin, (s.packByte p).getLsbD (7 - j.val) = s.fs p j) ∧ s.packByte p = (s.fsWires p).reverse

/-- The visible wires: bit `j` is pin `j` (R29, R32; decision D26). -/
def Obligations.WiresShowRegisters : Prop := ∀ (s : State) (p : Port) (j : Pin),
  (s.fsWires p).getLsbD j.val = s.fs p j ∧ (s.outWires p).getLsbD j.val = s.out p j

/-- REPORT: one request for each nibble whose pack differs from the last reported value, Low before High, and the last
reported values brought up to the pack; nothing else is written, and `DIR` is not read (R78; the order is decision D14, the
missing gate decision D11). -/
def Obligations.ReportSendsDirtyNibbles : Prop := ∀ (s : State) (p : Port),
  ∃ t, exec (.report p) s = .next t ∧ t.lastLo p = s.packLo p ∧ t.lastHi p = s.packHi p ∧
    emitted s t ((if s.packLo p ≠ s.lastLo p then [.sendNibble p .low (s.packLo p)] else []) ++
      (if s.packHi p ≠ s.lastHi p then [.sendNibble p .high (s.packHi p)] else [])) ∧
    (∀ q, q ≠ p → sameLast s t q) ∧ (∀ q, sameCells s t q ∧ sameDir s t q ∧ sameOut s t q) ∧
    sameWindow s t ∧ sameHost s t

/-- Change minimality (R79, derived by the spec from R78): a REPORT with nothing changed since the last one changes and
sends nothing; when exactly one `FS` bit changed, exactly one nibble is sent, the one that holds that pin. -/
def Obligations.ReportOnlyWhatChanged : Prop :=
  (∀ (s : State) (p : Port), reportedNow s p → exec (.report p) s = .next s) ∧
  ∀ (s t : State) (p : Port) (j : Pin),
    reportedNow s p → sameLast s t p → t.fs p j ≠ s.fs p j → (∀ k, k ≠ j → t.fs p k = s.fs p k) →
      ∃ u, exec (.report p) t = .next u ∧
        emitted t u [if j.val < 4 then .sendNibble p .high (t.packHi p) else .sendNibble p .low (t.packLo p)]

/-- The REPORT after an INIT (R81, derived by the spec): it sends a zero nibble for each nibble whose last reported value
was not zero, and the last reported values are zero afterwards. -/
def Obligations.ReportAfterInitSendsZeros : Prop := ∀ (s : State) (w r : Byte) (p : Port),
  ∃ t, execAll [.init w r, .report p] s = .next t ∧ t.lastLo p = 0x0 ∧ t.lastHi p = 0x0 ∧
    emitted s t ((if s.lastLo p ≠ 0x0 then [.sendNibble p .low 0x0] else []) ++
      (if s.lastHi p ≠ 0x0 then [.sendNibble p .high 0x0] else []))

/-- RESYNC: the full packed byte if a resync is owed, nothing otherwise; no register is written (R82; that it is not gated by
`DIR` is decision D11). -/
def Obligations.ResyncSendsByteIfOwed : Prop := ∀ (s : State) (p : Port) (owed : Bool),
  ∃ t, exec (.resync p owed) s = .next t ∧
    emitted s t (if owed = true then [.sendByte p (s.packByte p)] else []) ∧
    (∀ q, samePort s t q) ∧ sameWindow s t ∧ sameHost s t

/-- TICK is SCAN, then REPORT, then RESYNC on the same port (R86; decisions D13, D23). -/
def Obligations.TickIsScanReportResync : Prop := ∀ (s : State) (p : Port) (raw : Byte) (owed : Bool),
  exec (.tick p raw owed) s = execAll [.scan p raw, .report p, .resync p owed] s ∧ ∃ t, exec (.tick p raw owed) s = .next t

/-- What a TICK sends: at most a Low nibble, then at most a High nibble, each with the pack after this tick's scan, then the
byte exactly if owed; the byte is the last reported nibbles, which are the pack (R83, R86, R116; decisions D13, D14). -/
def Obligations.TickEventsInOrder : Prop := ∀ (s : State) (p : Port) (raw : Byte) (owed : Bool),
  ∃ t low high, exec (.tick p raw owed) s = .next t ∧
    (low = [] ∨ low = [.sendNibble p .low (t.packLo p)]) ∧ (high = [] ∨ high = [.sendNibble p .high (t.packHi p)]) ∧
    emitted s t (low ++ high ++ if owed = true then [.sendByte p (t.lastHi p ++ t.lastLo p)] else []) ∧
    reportedNow t p

/-- REPORT and RESYNC are not gated by the direction: a SETDIR may stand before or after them (R73, R78, R82; decision
D11). -/
def Obligations.DirectionDoesNotGateReporting : Prop := ∀ (s : State) (p : Port) (owed : Bool) (d : BitVec 3),
  execAll [.setdir d, .report p] s = execAll [.report p, .setdir d] s ∧
  execAll [.setdir d, .resync p owed] s = execAll [.resync p owed, .setdir d] s

/-- Commands that leave the same state when issued twice as when issued once (R37, derived by the spec). -/
def Obligations.RepeatedCommandsIdempotent : Prop := ∀ (s : State) (i : Instr),
  (i = .nop ∨ (∃ w r, i = .init w r) ∨ (∃ d, i = .setdir d) ∨ ∃ p, i = .report p) →
    execAll [i, i] s = execAll [i] s

/-! ### DISPATCH -/

/-- DISPATCH: an unbound index does nothing; a bound port in Input mode is left alone; in Output mode the one bound latch
takes the level and one `Activity` is emitted, whatever the latch held (R88; the word is decision D2). -/
def Obligations.DispatchWritesBoundLatch : Prop := ∀ (s : State) (idx : Byte) (level : Bool),
  (encode (.dispatch idx level)).toNat = 0x700000 + level.toNat * 2 ^ 16 + idx.toNat ∧
  ∃ t, exec (.dispatch idx level) s = .next t ∧
    match s.board.bind[idx.toNat]? with
    | none => t = s
    | some (p, j) =>
      if s.dir p = .output then
        t.out p j = level ∧ (∀ q k, (q, k) ≠ (p, j) → t.out q k = s.out q k) ∧
        (∀ q, sameCells s t q ∧ sameLast s t q ∧ sameDir s t q) ∧ sameWindow s t ∧ emitted s t [.activity] ∧ sameHost s t
      else t = s

/-- An index at or above `BIND_N` is ignored: no latch is written, no event is emitted, nothing is recorded (R89). -/
def Obligations.DispatchUnboundIgnored : Prop := ∀ (s : State) (idx : Byte) (level : Bool),
  s.board.bind.length ≤ idx.toNat → exec (.dispatch idx level) s = .next s

/-- A dispatch to a pin of a port in Input mode changes no output and emits nothing (R90; that no diagnostic is emitted is
decision D19). -/
def Obligations.DispatchToInputPortSuppressed : Prop :=
  ∀ (s : State) (idx : Byte) (level : Bool) (p : Port) (j : Pin),
    s.board.bind[idx.toNat]? = some (p, j) → s.dir p = .input → exec (.dispatch idx level) s = .next s

/-- A repeated DISPATCH leaves every register as the first one did and emits the same again: one `Activity` each if the index
is bound and its port is Output, nothing otherwise (R37, R88 a). -/
def Obligations.RepeatedDispatch : Prop := ∀ (s : State) (idx : Byte) (level : Bool),
  ∃ t u es, exec (.dispatch idx level) s = .next t ∧ exec (.dispatch idx level) t = .next u ∧
    (∀ p, samePort t u p) ∧ sameWindow t u ∧ sameHost t u ∧ emitted s t es ∧ emitted t u es ∧
    es = match s.board.bind[idx.toNat]? with
      | none => []
      | some (p, _) => if s.dir p = .output then [.activity] else []

/-! ### Whole-machine rules -/

/-- Outputs change "only under explicit Output configuration" (R22, R90): a step that changes an output latch applied the
reset event, or ran a DISPATCH bound to that latch while its port was Output. -/
def Obligations.OutputsChangeOnlyByPermittedDispatch : Prop := ∀ (s t : State) (p : Port) (j : Pin),
  step s = .next t → t.out p j ≠ s.out p j →
    (∃ rest, s.pending = .reset :: rest) ∨
    ∃ cmd rest idx level, s.pending = .command cmd :: rest ∧ decode cmd = .command (.dispatch idx level) ∧
      s.board.bind[idx.toNat]? = some (p, j) ∧ s.dir p = .output ∧ t.out p j = level

/-- The cells are written only by SCAN and TICK of their own Input port, by INIT and by reset (R13, R73). -/
def Obligations.CellsChangeOnlyByScanInitReset : Prop := ∀ (s t : State) (p : Port) (j : Pin),
  step s = .next t → t.cell p j ≠ s.cell p j →
    (∃ rest, s.pending = .reset :: rest) ∨
    ∃ cmd rest i, s.pending = .command cmd :: rest ∧ decode cmd = .command i ∧
      ((∃ w r, i = .init w r) ∨
        (s.dir p = .input ∧ ((∃ raw, i = .scan p raw) ∨ ∃ raw owed, i = .tick p raw owed)))

/-- `LASTLO[p]` and `LASTHI[p]` are written only by REPORT and TICK of port `p` and by reset (R17). -/
def Obligations.LastReportedChangesOnlyByReport : Prop := ∀ (s t : State) (p : Port),
  step s = .next t → ¬ sameLast s t p →
    (∃ rest, s.pending = .reset :: rest) ∨
    ∃ cmd rest i, s.pending = .command cmd :: rest ∧ decode cmd = .command i ∧
      (i = .report p ∨ ∃ raw owed, i = .tick p raw owed)

/-- `DIR` is written only by SETDIR and reset (R18); `WIDTH` and `DELAY` only by INIT and reset (R19, R21); the instance's
parameters never (R8: "immutable at runtime"). -/
def Obligations.ConfigurationWriters : Prop := ∀ (s t : State), step s = .next t →
  t.board = s.board ∧
  ((∃ p, t.dir p ≠ s.dir p) → (∃ rest, s.pending = .reset :: rest) ∨
    ∃ cmd rest d, s.pending = .command cmd :: rest ∧ decode cmd = .command (.setdir d)) ∧
  (¬ sameWindow s t → (∃ rest, s.pending = .reset :: rest) ∨
    ∃ cmd rest w r, s.pending = .command cmd :: rest ∧ decode cmd = .command (.init w r))

/-- The output event sequence of a run only grows, by at most three events a step (R11, R116), and each step uses up at
most the one thing presented next (R39, R42). -/
def Obligations.EventSequenceGrows : Prop := ∀ (s t : State), step s = .next t →
  (∃ es, t.allEvents = s.allEvents ++ es ∧ es.length ≤ 3) ∧ t.pending = s.pending.tail

/-- Reset establishes the invariants of R27, for every value of the open parameters. -/
def Obligations.InvariantsAtReset : Prop :=
  Invariants State.reset ∧ State.reset.board.wellFormed = true ∧ ∀ b : Board, Invariants (State.resetWith b)

/-- Every step keeps the invariants of R27 (derived by the spec from R58, R59, R62, R106): `1 <= WIDTH <= 8`; no countdown
above `DELAY`; for `DELAY >= 1` a cell that reads true still counts; the last reported nibbles are the ones last sent. -/
def Obligations.InvariantsKeptByEveryStep : Prop := ∀ s t : State, Invariants s → step s = .next t → Invariants t

/-! ### Independence and the caller's discipline -/

/-- The ports of a tick may be served in any order and their commands interleaved (R87, derived by the spec): two commands
of a tick (SCAN, REPORT, RESYNC or TICK) for different ports leave the same registers in either order, and each of the two
emits the same events in both. -/
def Obligations.PortsServedInAnyOrder : Prop := ∀ (s : State) (i k : Instr) (p q : Port),
  tickPort i = some p → tickPort k = some q → p ≠ q →
    ∃ s₁ s₂ t u es es', exec i s = .next s₁ ∧ exec k s₁ = .next t ∧ exec k s = .next s₂ ∧ exec i s₂ = .next u ∧
      (∀ r, samePort t u r) ∧ sameWindow t u ∧ sameHost t u ∧
      emitted s s₁ es ∧ emitted s₁ t es' ∧ emitted s s₂ es' ∧ emitted s₂ u es

/-- DISPATCH "may be issued at any point between the commands of a tick without affecting the input side" (R88 e): before
or after a command of a tick, the registers end the same, and the DISPATCH and the command each emit the same events. -/
def Obligations.DispatchIndependentOfTicks : Prop := ∀ (s : State) (i : Instr) (p : Port) (idx : Byte) (level : Bool),
  tickPort i = some p →
    ∃ s₁ s₂ t u es es', exec (.dispatch idx level) s = .next s₁ ∧ exec i s₁ = .next t ∧
      exec i s = .next s₂ ∧ exec (.dispatch idx level) s₂ = .next u ∧
      (∀ r, samePort t u r) ∧ sameWindow t u ∧ sameHost t u ∧
      emitted s s₁ es ∧ emitted s₁ t es' ∧ emitted s s₂ es' ∧ emitted s₂ u es

/-- What the caller's order of commands protects (R109, R112, R113). One command that keeps the discipline keeps
`nothingUnreported`: no port already reported in the open tick has an unreported change. The command that ends a tick leaves
no port with an unreported change. So, from between ticks, a list of commands that keeps the discipline reaches only such
states. How the duties of R109 to R115 read as one discipline is the model's reading (notes/assumptions/13.md). -/
def Obligations.DisciplinedTicksReportEveryChange : Prop :=
  (∀ (i : Instr) (ph ph' : TickPhases) (s t : State),
    nothingUnreported ph s → advanceTick ph i = some ph' → exec i s = .next t →
      nothingUnreported ph' t ∧ (isTickCommand i = true → ph' = betweenTicks → ∀ p, reportedNow t p)) ∧
  ∀ (is : List Instr) (ph : TickPhases) (s t : State),
    advanceTicks betweenTicks is = some ph → execAll is s = .next t → nothingUnreported ph t
end

