-- ==== Sys2Proof/Laws/Decode.lean ====
section
/-!
SUPPORT. Lemmas about the command encoding: the bits and the fields of a word built from its fields (30_encoding.md R43).
-/

namespace Sys2Proof

/-- Every bit of a word built from its fields. -/
theorem getLsbD_wordOfFields (op : BitVec 4) (p : BitVec 2) (f : Bool) (a b : Byte) (i : Nat) :
    (wordOfFields op p f a b).getLsbD i =
      if i < 8 then b.getLsbD i else if i < 16 then a.getLsbD (i - 8) else if i = 16 then f
      else if i = 17 then false else if i < 20 then p.getLsbD (i - 18) else op.getLsbD (i - 20) := by
  change BitVec.getLsbD (w := 4 + 2 + 1 + 1 + 8 + 8) (op ++ p ++ (0 : BitVec 1) ++ BitVec.ofBool f ++ a ++ b) i = _
  simp only [BitVec.getLsbD_append, BitVec.getLsbD_ofBool]
  grind

/-- The number of a word built from its fields. -/
theorem toNat_wordOfFields (op : BitVec 4) (p : BitVec 2) (f : Bool) (a b : Byte) :
    (wordOfFields op p f a b).toNat =
      op.toNat * 2 ^ 20 + p.toNat * 2 ^ 18 + f.toNat * 2 ^ 16 + a.toNat * 2 ^ 8 + b.toNat := by
  have shift : ∀ (x : Nat) {w : Nat} (y : BitVec w), x <<< w ||| y.toNat = x * 2 ^ w + y.toNat := by
    intro x w y
    rw [← Nat.shiftLeft_add_eq_or_of_lt y.isLt, Nat.shiftLeft_eq]
  simp only [wordOfFields, BitVec.toNat_append, shift]
  cases f <;> simp <;> omega

section Fields
variable (op : BitVec 4) (p : BitVec 2) (f : Bool) (a b : Byte)

@[simp] theorem opField_wordOfFields : opField (wordOfFields op p f a b) = op := by
  apply BitVec.eq_of_getLsbD_eq
  intro i hi
  simp only [opField, BitVec.getLsbD_extractLsb, getLsbD_wordOfFields]
  grind

@[simp] theorem pField_wordOfFields : pField (wordOfFields op p f a b) = p := by
  apply BitVec.eq_of_getLsbD_eq
  intro i hi
  simp only [pField, BitVec.getLsbD_extractLsb, getLsbD_wordOfFields]
  grind

@[simp] theorem zField_wordOfFields : zField (wordOfFields op p f a b) = false := by
  rw [zField, getLsbD_wordOfFields]; rfl

@[simp] theorem fField_wordOfFields : fField (wordOfFields op p f a b) = f := by
  rw [fField, getLsbD_wordOfFields]; rfl

@[simp] theorem aField_wordOfFields : aField (wordOfFields op p f a b) = a := by
  apply BitVec.eq_of_getLsbD_eq
  intro i hi
  simp only [aField, BitVec.getLsbD_extractLsb, getLsbD_wordOfFields]
  grind

@[simp] theorem bField_wordOfFields : bField (wordOfFields op p f a b) = b := by
  apply BitVec.eq_of_getLsbD_eq
  intro i hi
  simp only [bField, BitVec.getLsbD_extractLsb, getLsbD_wordOfFields]
  grind

end Fields

/-- A word with `cmd[17] = 0` is the word of its own fields. -/
theorem wordOfFields_fields (cmd : Word) (h : zField cmd = false) :
    wordOfFields (opField cmd) (pField cmd) (fField cmd) (aField cmd) (bField cmd) = cmd := by
  apply BitVec.eq_of_getLsbD_eq
  intro k hk
  rw [getLsbD_wordOfFields]
  simp only [opField, pField, fField, aField, bField, BitVec.getLsbD_extractLsb]
  rw [zField] at h
  grind

/-- A slice of a word is zero exactly when its bits are. -/
theorem slice_eq_zero_iff (cmd : Word) (hi lo : Nat) (h : lo ≤ hi) :
    cmd.extractLsb hi lo = 0 ↔ ∀ k, lo ≤ k → k ≤ hi → cmd.getLsbD k = false := by
  constructor
  · intro e k h1 h2
    have bit := congrArg (fun v => BitVec.getLsbD v (k - lo)) e
    simp only [BitVec.getLsbD_extractLsb, Nat.add_sub_cancel' h1, decide_eq_true (show k - lo < hi - lo + 1 by omega),
      Bool.true_and] at bit
    rw [bit]
    exact BitVec.getLsbD_zero
  · intro e
    apply BitVec.eq_of_getLsbD_eq
    intro i h1
    rw [BitVec.getLsbD_extractLsb, e (lo + i) (by omega) (by omega), Bool.and_false]
    exact BitVec.getLsbD_zero.symm

/-- A port is read back from its `p` field. -/
@[simp] theorem portOfBits_portBits (p : Port) : portOfBits (portBits p) = some p := by
  revert p; decide

/-- The `p` field of a port is never the reserved value 3. -/
theorem portBits_ne_three (p : Port) : portBits p ≠ 3 := by
  revert p; decide

/-- A `p` field names no port exactly when it is 3. -/
theorem portOfBits_eq_none (v : BitVec 2) : portOfBits v = none ↔ v = 3 := by
  revert v; decide

/-- A `p` field that names a port is that port's field. -/
theorem portOfBits_eq_some (v : BitVec 2) (p : Port) : portOfBits v = some p ↔ v = portBits p := by
  revert v p; decide

end Sys2Proof
end

