-- ==== Sys2Proof/Laws/Flags.lean ====
section
/-!
SUPPORT. Lemmas about the flag computations: the parts of a filter step (41_sample_filter.md R62) and the bits of the mask and
of the packed values (10_state.md R20, 43_change_nibble_encoder.md R75 to R77).
-/

namespace Sys2Proof.Machine

section Step
variable (width : Nibble) (delay : Byte) (c : Cell) (raw : Bool)

@[simp] theorem filterStep_hist : (filterStep width delay c raw).hist = shiftHist c.hist raw := rfl
@[simp] theorem filterStep_cnt : (filterStep width delay c raw).cnt = nextCnt delay c.cnt raw := rfl
@[simp] theorem filterStep_fs : (filterStep width delay c raw).fs =
    nextFs width (shiftHist c.hist raw) (nextCnt delay c.cnt raw) c.fs := rfl

@[simp] theorem nextCnt_true (cnt : Byte) : nextCnt delay cnt true = delay := rfl

/-- A false sample decrements the countdown, down to 0. -/
theorem nextCnt_false_toNat (cnt : Byte) : (nextCnt delay cnt false).toNat = cnt.toNat - 1 := by
  simp only [nextCnt, Bool.false_eq_true, if_false]
  split
  · bv_omega
  · bv_omega

/-- A released cell asserts exactly when the window is all true. -/
theorem nextFs_released_iff (hist cnt : Byte) :
    nextFs width hist cnt false = true ↔ hist &&& maskOf width = maskOf width := by
  simp [nextFs]

/-- An asserted cell stays asserted exactly while its countdown is not 0. -/
theorem nextFs_asserted_iff (hist cnt : Byte) : nextFs width hist cnt true = true ↔ cnt ≠ 0 := by
  simp [nextFs]

@[simp] theorem filterRun_nil : filterRun width delay c [] = c := rfl
@[simp] theorem filterRun_cons (rs : List Bool) :
    filterRun width delay c (raw :: rs) = filterRun width delay (filterStep width delay c raw) rs := rfl
theorem filterRun_append (rs rs' : List Bool) :
    filterRun width delay c (rs ++ rs') = filterRun width delay (filterRun width delay c rs) rs' := by
  simp [filterRun]

theorem filterRun_append_singleton (rs : List Bool) :
    filterRun width delay c (rs ++ [raw]) = filterStep width delay (filterRun width delay c rs) raw := by
  simp [filterRun]

end Step

/-- Bit 0 of a shifted window is the new sample, bit `k + 1` the old bit `k` (R14). -/
theorem getLsbD_shiftHist (hist : Byte) (raw : Bool) (k : Nat) (hk : k < 8) :
    (shiftHist hist raw).getLsbD k = if k = 0 then raw else hist.getLsbD (k - 1) := by
  interval_cases k <;> cases raw <;> simp [shiftHist]

/-- Bit `k` of a cell's window after a run is the sample taken `k` ticks before the last, or an older bit of the window it
started with (R14). -/
theorem getLsbD_filterRun_hist (width : Nibble) (delay : Byte) (c : Cell) (samples : List Bool) (k : Nat) (hk : k < 8) :
    (filterRun width delay c samples).hist.getLsbD k =
      if h : k < samples.length then samples.reverse[k]'(by simpa using h)
      else c.hist.getLsbD (k - samples.length) := by
  induction samples using List.reverseRecOn generalizing k with
  | nil => simp
  | append_singleton rs raw ih =>
    rw [filterRun_append_singleton, filterStep_hist, getLsbD_shiftHist _ _ _ hk]
    cases k with
    | zero => simp
    | succ k =>
      rw [if_neg (by omega), Nat.add_sub_cancel, ih k (by omega)]
      simp only [List.length_append, List.length_singleton, List.reverse_append, List.reverse_singleton,
        List.singleton_append, Nat.add_lt_add_iff_right, Nat.add_sub_add_right]
      split
      · simp
      · rfl

/-- "exactly `windowWidth` low bits set" (R20). -/
theorem getLsbD_maskOf (width : Nibble) (k : Nat) (hk : k < 8) :
    (maskOf width).getLsbD k = decide (k < width.toNat) := by
  revert k; revert width; decide

/-- The window test reads the low `WIDTH` bits and no other (R62, R69). -/
theorem window_full_iff (width : Nibble) (hist : Byte) :
    hist &&& maskOf width = maskOf width ↔ ∀ k, k < 8 → k < width.toNat → hist.getLsbD k = true := by
  constructor
  · intro h k hk hw
    have bit := congrArg (fun v => BitVec.getLsbD v k) h
    simp only [BitVec.getLsbD_and, getLsbD_maskOf width k hk, hw, decide_true, Bool.and_true] at bit
    exact bit
  · intro h
    apply BitVec.eq_of_getLsbD_eq
    intro k hk
    rw [BitVec.getLsbD_and, getLsbD_maskOf width k hk]
    by_cases hw : k < width.toNat
    · simp only [h k hk hw, hw, decide_true, Bool.and_true]
    · simp only [hw, decide_false, Bool.and_false]

/-- The four bits of a nibble, the first argument in bit 3. -/
theorem getLsbD_nibbleOf (b3 b2 b1 b0 : Bool) :
    (nibbleOf b3 b2 b1 b0).getLsbD 3 = b3 ∧ (nibbleOf b3 b2 b1 b0).getLsbD 2 = b2 ∧
      (nibbleOf b3 b2 b1 b0).getLsbD 1 = b1 ∧ (nibbleOf b3 b2 b1 b0).getLsbD 0 = b0 := by
  revert b3 b2 b1 b0; decide

/-- "any change of any of the four `FS` bits changes the packed value" (R78 b). -/
theorem nibbleOf_inj (b3 b2 b1 b0 c3 c2 c1 c0 : Bool) :
    nibbleOf b3 b2 b1 b0 = nibbleOf c3 c2 c1 c0 ↔ b3 = c3 ∧ b2 = c2 ∧ b1 = c1 ∧ b0 = c0 := by
  revert b3 b2 b1 b0 c3 c2 c1 c0; decide

/-- A nibble of released cells is 0x0. -/
@[simp] theorem nibbleOf_released : nibbleOf false false false false = 0x0 := by decide

end Sys2Proof.Machine
end

