-- ==== Sys2Proof/Laws/State.lean ====
section
/-!
SUPPORT. One lemma per register per update, so that no later proof unfolds a record update.
-/

namespace Sys2Proof.Machine

section Fields
variable (s : State) (p q : Port) (g : PortGroup) (e : Event)

/-! ### Replacing a port group -/

@[simp] theorem State.setPort_width : (s.setPort p g).width = s.width := rfl
@[simp] theorem State.setPort_delay : (s.setPort p g).delay = s.delay := rfl
@[simp] theorem State.setPort_board : (s.setPort p g).board = s.board := rfl
@[simp] theorem State.setPort_pending : (s.setPort p g).pending = s.pending := rfl
@[simp] theorem State.setPort_events : (s.setPort p g).events = s.events := rfl
@[simp] theorem State.setPort_eventsBefore : (s.setPort p g).eventsBefore = s.eventsBefore := rfl

/-- A port group reads as it was last written. -/
theorem State.port_setPort : (s.setPort p g).port q = if q = p then g else s.port q := by
  simp only [State.port, State.setPort, Fin.getElem_fin, Vector.getElem_set, Fin.ext_iff, eq_comm]

@[simp] theorem State.port_setPort_self : (s.setPort p g).port p = g := by
  rw [State.port_setPort, if_pos rfl]

@[simp] theorem State.port_setPort_ne (h : q ≠ p) : (s.setPort p g).port q = s.port q := by
  rw [State.port_setPort, if_neg h]

/-- Writing back what a port group holds changes nothing. -/
@[simp] theorem State.setPort_port : s.setPort p (s.port p) = s := by
  simp [State.setPort, State.port]

/-- Writes to one port group: the last one stands. -/
@[simp] theorem State.setPort_setPort (g' : PortGroup) : (s.setPort p g).setPort p g' = s.setPort p g' := by
  simp [State.setPort]

/-- Writes to two port groups may be done in either order. -/
theorem State.setPort_comm (g' : PortGroup) (h : p ≠ q) :
    (s.setPort p g).setPort q g' = (s.setPort q g').setPort p g := by
  have h' : p.val ≠ q.val := fun e => h (Fin.ext e)
  simp only [State.setPort]
  rw [Vector.set_comm _ _ h']

/-! ### Emitting an event -/

@[simp] theorem State.emit_width : (s.emit e).width = s.width := rfl
@[simp] theorem State.emit_delay : (s.emit e).delay = s.delay := rfl
@[simp] theorem State.emit_board : (s.emit e).board = s.board := rfl
@[simp] theorem State.emit_pending : (s.emit e).pending = s.pending := rfl
@[simp] theorem State.emit_events : (s.emit e).events = s.events ++ [e] := rfl
@[simp] theorem State.emit_eventsBefore : (s.emit e).eventsBefore = s.eventsBefore := rfl
@[simp] theorem State.emit_port : (s.emit e).port q = s.port q := rfl

/-- An emitted event and a port write do not meet. -/
theorem State.emit_setPort : (s.emit e).setPort p g = (s.setPort p g).emit e := rfl

end Fields

/-- Two states with the same port groups and the same other fields are one state. -/
theorem State.ext_ports {s t : State} (hp : ∀ p, t.port p = s.port p) (hw : t.width = s.width) (hd : t.delay = s.delay)
    (hb : t.board = s.board) (hq : t.pending = s.pending) (he : t.events = s.events)
    (he' : t.eventsBefore = s.eventsBefore) : t = s := by
  obtain ⟨ps, _, _, _, _, _, _⟩ := s
  obtain ⟨pt, _, _, _, _, _, _⟩ := t
  simp only [State.port] at hp
  have : pt = ps := by
    apply Vector.ext
    intro i hi
    exact hp ⟨i, hi⟩
  simp_all

/-! ### The registers of one port group written -/

section Registers
variable (s : State) (p q : Port) (j k : Pin) (v : Nibble) (b raw : Bool)

@[simp] theorem State.setLastLo_port : (s.setLastLo p v).port p = { s.port p with lastLo := v } := by
  simp [State.setLastLo]
@[simp] theorem State.setLastLo_port_ne (h : q ≠ p) : (s.setLastLo p v).port q = s.port q := by
  simp [State.setLastLo, h]
@[simp] theorem State.setLastHi_port : (s.setLastHi p v).port p = { s.port p with lastHi := v } := by
  simp [State.setLastHi]
@[simp] theorem State.setLastHi_port_ne (h : q ≠ p) : (s.setLastHi p v).port q = s.port q := by
  simp [State.setLastHi, h]
@[simp] theorem State.setOut_port :
    (s.setOut p j b).port p = { s.port p with out := (s.port p).out.set j b } := by simp [State.setOut]
@[simp] theorem State.setOut_port_ne (h : q ≠ p) : (s.setOut p j b).port q = s.port q := by
  simp [State.setOut, h]
@[simp] theorem State.filterStepAt_port_ne (h : q ≠ p) : (s.filterStepAt p j raw).port q = s.port q := by
  simp [State.filterStepAt, h]

/-- One output latch is written and no other. -/
theorem State.out_setOut : (s.setOut p j b).out q k = if q = p ∧ k = j then b else s.out q k := by
  by_cases h : q = p
  · subst h
    simp only [State.out, State.setOut_port, Fin.getElem_fin, Vector.getElem_set, true_and, Fin.ext_iff, eq_comm]
  · simp [State.out, h]

/-- `filter_step` writes its own cell and no other (R13, R62). -/
theorem State.cell_filterStepAt : (s.filterStepAt p j raw).cell q k =
    if q = p ∧ k = j then filterStep s.width s.delay (s.cell p j) raw else s.cell q k := by
  by_cases h : q = p
  · subst h
    simp only [State.cell, State.filterStepAt, State.port_setPort_self, Fin.getElem_fin, Vector.getElem_set, true_and,
      Fin.ext_iff, eq_comm]
  · simp [State.cell, h]

end Registers

/-! ### Reset -/

@[simp] theorem State.resetWith_port (b : Board) (p : Port) : (State.resetWith b).port p = PortGroup.reset := by
  simp [State.port, State.resetWith]

@[simp] theorem State.resetWith_cell (b : Board) (p : Port) (j : Pin) : (State.resetWith b).cell p j = Cell.cleared := by
  simp [State.cell, PortGroup.reset]

end Sys2Proof.Machine
end

