-- ==== Sys2Proof/Laws/Ops.lean ====
section
/-!
SUPPORT. What each shared operation can do, said once: its effect on every port group and on every other field. The provers
cite these lemmas instead of unfolding an operation.
-/

namespace Sys2Proof.Machine

section Commands
variable (s : State) (p q : Port) (j : Pin)

/-! ### INIT (R59) -/

section Reload
variable (w r : Byte)

@[simp] theorem reloadConfig_width : (reloadConfig w r s).width = clampWidth w := rfl
@[simp] theorem reloadConfig_delay : (reloadConfig w r s).delay = r := rfl
@[simp] theorem reloadConfig_board : (reloadConfig w r s).board = s.board := rfl
@[simp] theorem reloadConfig_pending : (reloadConfig w r s).pending = s.pending := rfl
@[simp] theorem reloadConfig_events : (reloadConfig w r s).events = s.events := rfl
@[simp] theorem reloadConfig_eventsBefore : (reloadConfig w r s).eventsBefore = s.eventsBefore := rfl
@[simp] theorem reloadConfig_port :
    (reloadConfig w r s).port p = { s.port p with cells := Vector.replicate 8 Cell.cleared } := by
  simp [State.port, reloadConfig]
@[simp] theorem reloadConfig_cell : (reloadConfig w r s).cell p j = Cell.cleared := by
  simp [State.cell]

@[simp] theorem reloadConfig_lastLo : (reloadConfig w r s).lastLo p = s.lastLo p := by simp [State.lastLo]
@[simp] theorem reloadConfig_lastHi : (reloadConfig w r s).lastHi p = s.lastHi p := by simp [State.lastHi]
@[simp] theorem reloadConfig_dir : (reloadConfig w r s).dir p = s.dir p := by simp [State.dir]
@[simp] theorem reloadConfig_out : (reloadConfig w r s).out p j = s.out p j := by simp [State.out]

end Reload

/-- The clamped width is legal (R58). -/
theorem clampWidth_legal (w : Byte) : 1 ≤ (clampWidth w).toNat ∧ (clampWidth w).toNat ≤ 8 := by
  unfold clampWidth
  split
  · decide
  · split
    · rename_i h0 h8
      rw [BitVec.truncate_eq_setWidth, BitVec.toNat_setWidth]
      have : w.toNat ≠ 0 := fun h => h0 (BitVec.eq_of_toNat_eq h)
      have : w.toNat ≤ 8 := h8
      omega
    · decide

/-! ### SETDIR (R60) -/

section Directions
variable (d : BitVec 3)

@[simp] theorem latchDirections_width : (latchDirections d s).width = s.width := rfl
@[simp] theorem latchDirections_delay : (latchDirections d s).delay = s.delay := rfl
@[simp] theorem latchDirections_board : (latchDirections d s).board = s.board := rfl
@[simp] theorem latchDirections_pending : (latchDirections d s).pending = s.pending := rfl
@[simp] theorem latchDirections_events : (latchDirections d s).events = s.events := rfl
@[simp] theorem latchDirections_eventsBefore : (latchDirections d s).eventsBefore = s.eventsBefore := rfl
@[simp] theorem latchDirections_port :
    (latchDirections d s).port p = { s.port p with dir := dirOperand d p } := by
  simp [State.port, latchDirections]

@[simp] theorem latchDirections_cell : (latchDirections d s).cell p j = s.cell p j := by simp [State.cell]
@[simp] theorem latchDirections_lastLo : (latchDirections d s).lastLo p = s.lastLo p := by simp [State.lastLo]
@[simp] theorem latchDirections_lastHi : (latchDirections d s).lastHi p = s.lastHi p := by simp [State.lastHi]
@[simp] theorem latchDirections_dir : (latchDirections d s).dir p = dirOperand d p := by simp [State.dir]
@[simp] theorem latchDirections_out : (latchDirections d s).out p j = s.out p j := by simp [State.out]

end Directions

/-! ### SCAN (R71, R73) -/

section Scan
variable (raw : Byte)

theorem scanPort_of_input (h : s.dir p = .input) :
    scanPort p raw s = s.setPort p (stepCells s.width s.delay raw (s.port p)) := by
  simp only [scanPort, h]

theorem scanPort_of_output (h : s.dir p = .output) : scanPort p raw s = s := by
  simp only [scanPort, h]

/-- What a scan can be: nothing, or one pass over the port. -/
theorem scanPort_cases :
    (s.dir p = .output ∧ scanPort p raw s = s) ∨
      (s.dir p = .input ∧ scanPort p raw s = s.setPort p (stepCells s.width s.delay raw (s.port p))) := by
  cases h : s.dir p
  · exact .inr ⟨rfl, scanPort_of_input s p raw h⟩
  · exact .inl ⟨rfl, scanPort_of_output s p raw h⟩

@[simp] theorem stepCells_cell (width : Nibble) (delay : Byte) (g : PortGroup) :
    (stepCells width delay raw g).cells[j] = filterStep width delay g.cells[j] (rawSample raw j) := by
  simp [stepCells]
@[simp] theorem stepCells_lastLo (width : Nibble) (delay : Byte) (g : PortGroup) :
    (stepCells width delay raw g).lastLo = g.lastLo := rfl
@[simp] theorem stepCells_lastHi (width : Nibble) (delay : Byte) (g : PortGroup) :
    (stepCells width delay raw g).lastHi = g.lastHi := rfl
@[simp] theorem stepCells_dir (width : Nibble) (delay : Byte) (g : PortGroup) :
    (stepCells width delay raw g).dir = g.dir := rfl
@[simp] theorem stepCells_out (width : Nibble) (delay : Byte) (g : PortGroup) :
    (stepCells width delay raw g).out = g.out := rfl

@[simp] theorem scanPort_width : (scanPort p raw s).width = s.width := by unfold scanPort; split <;> rfl
@[simp] theorem scanPort_delay : (scanPort p raw s).delay = s.delay := by unfold scanPort; split <;> rfl
@[simp] theorem scanPort_board : (scanPort p raw s).board = s.board := by unfold scanPort; split <;> rfl
@[simp] theorem scanPort_pending : (scanPort p raw s).pending = s.pending := by unfold scanPort; split <;> rfl
@[simp] theorem scanPort_events : (scanPort p raw s).events = s.events := by unfold scanPort; split <;> rfl
@[simp] theorem scanPort_eventsBefore : (scanPort p raw s).eventsBefore = s.eventsBefore := by
  unfold scanPort; split <;> rfl
@[simp] theorem scanPort_port_ne (h : q ≠ p) : (scanPort p raw s).port q = s.port q := by
  obtain ⟨-, e⟩ | ⟨-, e⟩ := scanPort_cases s p raw <;> rw [e]
  exact State.port_setPort_ne s p q _ h

/-- A scan writes nothing but the cells of its port. -/
theorem scanPort_port : (scanPort p raw s).port p = { s.port p with cells := ((scanPort p raw s).port p).cells } := by
  obtain ⟨-, e⟩ | ⟨-, e⟩ := scanPort_cases s p raw <;> rw [e]
  rw [State.port_setPort_self]
  rfl

@[simp] theorem scanPort_lastLo : (scanPort p raw s).lastLo q = s.lastLo q := by
  by_cases h : q = p
  · subst h; rw [State.lastLo, scanPort_port]; rfl
  · rw [State.lastLo, scanPort_port_ne s p q raw h]; rfl
@[simp] theorem scanPort_lastHi : (scanPort p raw s).lastHi q = s.lastHi q := by
  by_cases h : q = p
  · subst h; rw [State.lastHi, scanPort_port]; rfl
  · rw [State.lastHi, scanPort_port_ne s p q raw h]; rfl
@[simp] theorem scanPort_dir : (scanPort p raw s).dir q = s.dir q := by
  by_cases h : q = p
  · subst h; rw [State.dir, scanPort_port]; rfl
  · rw [State.dir, scanPort_port_ne s p q raw h]; rfl
@[simp] theorem scanPort_out : (scanPort p raw s).out q j = s.out q j := by
  by_cases h : q = p
  · subst h; rw [State.out, scanPort_port]; rfl
  · rw [State.out, scanPort_port_ne s p q raw h]; rfl

/-- Each cell of a scanned Input port takes its own step. -/
theorem scanPort_cell (h : s.dir p = .input) :
    (scanPort p raw s).cell p j = filterStep s.width s.delay (s.cell p j) (rawSample raw j) := by
  rw [scanPort_of_input s p raw h, State.cell, State.port_setPort_self, stepCells_cell]
  rfl

/-- The cells after a scan: those of an Input port take their own step, all others are as they were. -/
theorem scanPort_cell_eq : (scanPort p raw s).cell q j =
    if q = p ∧ s.dir p = .input then filterStep s.width s.delay (s.cell q j) (rawSample raw j) else s.cell q j := by
  by_cases h : q = p
  · subst h
    cases hd : s.dir q with
    | input => rw [scanPort_cell _ _ _ _ hd]; simp
    | output => rw [scanPort_of_output _ _ _ hd]; simp
  · simp [State.cell, h]

end Scan

/-! ### REPORT (R78) -/

/-- The requests of a change report: one for each dirty nibble, Low before High (R78). -/
def reportEvents (s : State) (p : Port) : List Event :=
  (if dirtyLow (s.port p) then [.sendNibble p .low (s.packLo p)] else []) ++
    (if dirtyHigh (s.port p) then [.sendNibble p .high (s.packHi p)] else [])

/-- A report leaves the last reported nibbles equal to the pack, whether a nibble was dirty or not (R80). -/
@[simp] theorem reportPort_port :
    (reportPort p s).port p = { s.port p with lastLo := s.packLo p, lastHi := s.packHi p } := by
  have lo : dirtyLow (s.port p) = false → s.packLo p = (s.port p).lastLo := fun h => by
    simpa [dirtyLow, State.packLo] using h
  have hi : dirtyHigh (s.port p) = false → s.packHi p = (s.port p).lastHi := fun h => by
    simpa [dirtyHigh, State.packHi] using h
  unfold reportPort
  cases hl : dirtyLow (s.port p) <;> cases hh : dirtyHigh (s.port p) <;> simp [hl, hh, lo, hi]

@[simp] theorem reportPort_port_ne (h : q ≠ p) : (reportPort p s).port q = s.port q := by
  unfold reportPort
  cases dirtyLow (s.port p) <;> cases dirtyHigh (s.port p) <;> simp [h]

@[simp] theorem reportPort_cell : (reportPort p s).cell q j = s.cell q j := by
  by_cases h : q = p
  · subst h; simp [State.cell]
  · simp [State.cell, h]
@[simp] theorem reportPort_dir : (reportPort p s).dir q = s.dir q := by
  by_cases h : q = p
  · subst h; simp [State.dir]
  · simp [State.dir, h]
@[simp] theorem reportPort_out : (reportPort p s).out q j = s.out q j := by
  by_cases h : q = p
  · subst h; simp [State.out]
  · simp [State.out, h]
theorem reportPort_lastLo : (reportPort p s).lastLo q = if q = p then s.packLo p else s.lastLo q := by
  by_cases h : q = p
  · subst h; simp [State.lastLo]
  · simp [State.lastLo, h]
theorem reportPort_lastHi : (reportPort p s).lastHi q = if q = p then s.packHi p else s.lastHi q := by
  by_cases h : q = p
  · subst h; simp [State.lastHi]
  · simp [State.lastHi, h]
@[simp] theorem reportPort_width : (reportPort p s).width = s.width := by
  unfold reportPort; cases dirtyLow (s.port p) <;> cases dirtyHigh (s.port p) <;> rfl
@[simp] theorem reportPort_delay : (reportPort p s).delay = s.delay := by
  unfold reportPort; cases dirtyLow (s.port p) <;> cases dirtyHigh (s.port p) <;> rfl
@[simp] theorem reportPort_board : (reportPort p s).board = s.board := by
  unfold reportPort; cases dirtyLow (s.port p) <;> cases dirtyHigh (s.port p) <;> rfl
@[simp] theorem reportPort_pending : (reportPort p s).pending = s.pending := by
  unfold reportPort; cases dirtyLow (s.port p) <;> cases dirtyHigh (s.port p) <;> rfl
@[simp] theorem reportPort_eventsBefore : (reportPort p s).eventsBefore = s.eventsBefore := by
  unfold reportPort; cases dirtyLow (s.port p) <;> cases dirtyHigh (s.port p) <;> rfl
@[simp] theorem reportPort_events : (reportPort p s).events = s.events ++ reportEvents s p := by
  unfold reportPort reportEvents
  cases dirtyLow (s.port p) <;> cases dirtyHigh (s.port p) <;>
    simp [State.emit, State.setLastLo, State.setLastHi, State.setPort]

/-! ### RESYNC (R82) -/

section Resync
variable (owed : Bool)

@[simp] theorem resyncPort_port : (resyncPort p owed s).port q = s.port q := by cases owed <;> rfl
@[simp] theorem resyncPort_cell : (resyncPort p owed s).cell q j = s.cell q j := by cases owed <;> rfl
@[simp] theorem resyncPort_lastLo : (resyncPort p owed s).lastLo q = s.lastLo q := by cases owed <;> rfl
@[simp] theorem resyncPort_lastHi : (resyncPort p owed s).lastHi q = s.lastHi q := by cases owed <;> rfl
@[simp] theorem resyncPort_dir : (resyncPort p owed s).dir q = s.dir q := by cases owed <;> rfl
@[simp] theorem resyncPort_out : (resyncPort p owed s).out q j = s.out q j := by cases owed <;> rfl
@[simp] theorem resyncPort_width : (resyncPort p owed s).width = s.width := by cases owed <;> rfl
@[simp] theorem resyncPort_delay : (resyncPort p owed s).delay = s.delay := by cases owed <;> rfl
@[simp] theorem resyncPort_board : (resyncPort p owed s).board = s.board := by cases owed <;> rfl
@[simp] theorem resyncPort_pending : (resyncPort p owed s).pending = s.pending := by cases owed <;> rfl
@[simp] theorem resyncPort_eventsBefore : (resyncPort p owed s).eventsBefore = s.eventsBefore := by
  cases owed <;> rfl
@[simp] theorem resyncPort_events :
    (resyncPort p owed s).events = s.events ++ if owed then [.sendByte p (s.packByte p)] else [] := by
  cases owed <;> simp [resyncPort]

end Resync

/-! ### DISPATCH (R88 to R90) -/

/-- What a dispatch can be: an unbound index, a bound port in Input mode, or the write of one latch. -/
theorem dispatchLevel_cases (idx : Byte) (level : Bool) :
    (boundPin s.board idx = none ∧ dispatchLevel idx level s = s) ∨
    (∃ p j, boundPin s.board idx = some (p, j) ∧ s.dir p = .input ∧ dispatchLevel idx level s = s) ∨
    (∃ p j, boundPin s.board idx = some (p, j) ∧ s.dir p = .output ∧
      dispatchLevel idx level s = (s.setOut p j level).emit .activity) := by
  unfold dispatchLevel
  cases h : boundPin s.board idx with
  | none => exact .inl ⟨rfl, rfl⟩
  | some pin =>
    obtain ⟨p, j⟩ := pin
    cases hd : s.dir p with
    | input => exact .inr (.inl ⟨p, j, rfl, hd, by simp [hd]⟩)
    | output => exact .inr (.inr ⟨p, j, rfl, hd, by simp [hd]⟩)

section Dispatch
variable (idx : Byte) (level : Bool)

@[simp] theorem dispatchLevel_width : (dispatchLevel idx level s).width = s.width := by
  obtain ⟨-, e⟩ | ⟨_, _, -, -, e⟩ | ⟨_, _, -, -, e⟩ := dispatchLevel_cases s idx level <;> rw [e]
  rfl
@[simp] theorem dispatchLevel_delay : (dispatchLevel idx level s).delay = s.delay := by
  obtain ⟨-, e⟩ | ⟨_, _, -, -, e⟩ | ⟨_, _, -, -, e⟩ := dispatchLevel_cases s idx level <;> rw [e]
  rfl
@[simp] theorem dispatchLevel_board : (dispatchLevel idx level s).board = s.board := by
  obtain ⟨-, e⟩ | ⟨_, _, -, -, e⟩ | ⟨_, _, -, -, e⟩ := dispatchLevel_cases s idx level <;> rw [e]
  rfl
@[simp] theorem dispatchLevel_pending : (dispatchLevel idx level s).pending = s.pending := by
  obtain ⟨-, e⟩ | ⟨_, _, -, -, e⟩ | ⟨_, _, -, -, e⟩ := dispatchLevel_cases s idx level <;> rw [e]
  rfl
@[simp] theorem dispatchLevel_eventsBefore : (dispatchLevel idx level s).eventsBefore = s.eventsBefore := by
  obtain ⟨-, e⟩ | ⟨_, _, -, -, e⟩ | ⟨_, _, -, -, e⟩ := dispatchLevel_cases s idx level <;> rw [e]
  rfl

/-- A dispatch writes nothing of a port group but its output latches. -/
theorem dispatchLevel_port :
    (dispatchLevel idx level s).port q = { s.port q with out := ((dispatchLevel idx level s).port q).out } := by
  obtain ⟨-, e⟩ | ⟨_, _, -, -, e⟩ | ⟨p, j, -, -, e⟩ := dispatchLevel_cases s idx level <;> rw [e]
  by_cases h : q = p
  · subst h; simp
  · simp [h]

@[simp] theorem dispatchLevel_cell : (dispatchLevel idx level s).cell q j = s.cell q j := by
  rw [State.cell, dispatchLevel_port]; rfl
@[simp] theorem dispatchLevel_lastLo : (dispatchLevel idx level s).lastLo q = s.lastLo q := by
  rw [State.lastLo, dispatchLevel_port]; rfl
@[simp] theorem dispatchLevel_lastHi : (dispatchLevel idx level s).lastHi q = s.lastHi q := by
  rw [State.lastHi, dispatchLevel_port]; rfl
@[simp] theorem dispatchLevel_dir : (dispatchLevel idx level s).dir q = s.dir q := by
  rw [State.dir, dispatchLevel_port]; rfl

/-- The requests of a dispatch: one activity signal for a permitted write (R91). -/
def dispatchEvents (s : State) (idx : Byte) : List Event :=
  match boundPin s.board idx with
  | none => []
  | some (p, _) => if s.dir p = .output then [.activity] else []

@[simp] theorem dispatchLevel_events : (dispatchLevel idx level s).events = s.events ++ dispatchEvents s idx := by
  unfold dispatchEvents
  obtain ⟨h, e⟩ | ⟨_, _, h, hd, e⟩ | ⟨_, _, h, hd, e⟩ := dispatchLevel_cases s idx level <;> rw [e, h] <;>
    simp [*, State.setOut]

/-- The output latches after a dispatch: the bound latch of an Output port has the level, all others are as they were. -/
theorem dispatchLevel_out : (dispatchLevel idx level s).out q j =
    match boundPin s.board idx with
    | none => s.out q j
    | some (p', j') => if s.dir p' = .output ∧ q = p' ∧ j = j' then level else s.out q j := by
  obtain ⟨h, e⟩ | ⟨_, _, h, hd, e⟩ | ⟨p', j', h, hd, e⟩ := dispatchLevel_cases s idx level <;> rw [e, h]
  · simp [hd]
  · show (s.setOut p' j' level).out q j = _
    rw [State.out_setOut]
    simp [hd]

end Dispatch

/-- An index is bound exactly when it is below `BIND_N` (R8, R89). -/
theorem boundPin_eq_none (b : Board) (idx : Byte) : boundPin b idx = none ↔ b.bind.length ≤ idx.toNat := by
  simp [boundPin]

end Commands

/-! ### The reset event (R105, R106) -/

section Reset
variable (s : State) (p : Port)

@[simp] theorem applyReset_port : (applyReset s).port p = PortGroup.reset := State.resetWith_port s.board p
@[simp] theorem applyReset_width : (applyReset s).width = 3 := rfl
@[simp] theorem applyReset_delay : (applyReset s).delay = s.board.resetDelay := rfl
@[simp] theorem applyReset_board : (applyReset s).board = s.board := rfl
@[simp] theorem applyReset_pending : (applyReset s).pending = s.pending := rfl
@[simp] theorem applyReset_events : (applyReset s).events = [] := rfl
@[simp] theorem applyReset_eventsBefore : (applyReset s).eventsBefore = s.allEvents := rfl

end Reset

/-! ### The packed values -/

section Packed
variable (s t : State) (p : Port)

/-- The packed nibbles and the packed byte read the cells of their port and nothing else (R75 to R77). -/
theorem packLo_congr (h : ∀ j, t.cell p j = s.cell p j) : t.packLo p = s.packLo p := by
  have c : ∀ j : Pin, (t.port p).cells[j] = (s.port p).cells[j] := h
  simp only [State.packLo, packLo, show (t.port p).cells[4] = _ from c 4, show (t.port p).cells[5] = _ from c 5,
    show (t.port p).cells[6] = _ from c 6, show (t.port p).cells[7] = _ from c 7]
  rfl
theorem packHi_congr (h : ∀ j, t.cell p j = s.cell p j) : t.packHi p = s.packHi p := by
  have c : ∀ j : Pin, (t.port p).cells[j] = (s.port p).cells[j] := h
  simp only [State.packHi, packHi, show (t.port p).cells[0] = _ from c 0, show (t.port p).cells[1] = _ from c 1,
    show (t.port p).cells[2] = _ from c 2, show (t.port p).cells[3] = _ from c 3]
  rfl
theorem packByte_congr (h : ∀ j, t.cell p j = s.cell p j) : t.packByte p = s.packByte p := by
  have lo := packLo_congr s t p h
  have hi := packHi_congr s t p h
  simp only [State.packLo, State.packHi] at lo hi
  simp only [State.packByte, packByte, lo, hi]

/-- The dirty marks and so the requests of a report depend on the cells and the last reported nibbles of the port alone. -/
theorem reportEvents_congr (h : ∀ j, t.cell p j = s.cell p j) (lo : t.lastLo p = s.lastLo p)
    (hi : t.lastHi p = s.lastHi p) : reportEvents t p = reportEvents s p := by
  have packedLow := packLo_congr s t p h
  have packedHigh := packHi_congr s t p h
  have low : dirtyLow (t.port p) = dirtyLow (s.port p) := by
    show (t.packLo p != t.lastLo p) = (s.packLo p != s.lastLo p)
    rw [packedLow, lo]
  have high : dirtyHigh (t.port p) = dirtyHigh (s.port p) := by
    show (t.packHi p != t.lastHi p) = (s.packHi p != s.lastHi p)
    rw [packedHigh, hi]
  unfold reportEvents
  rw [packedLow, packedHigh, low, high]

end Packed

/-! ### One step -/

/-- What a step can be: idle, the reset event, a command, or a word that is ignored. -/
theorem step_cases (s : State) :
    (s.pending = [] ∧ step s = .next s) ∨
    (∃ rest, s.pending = .reset :: rest ∧ step s = .next (applyReset { s with pending := rest })) ∨
    (∃ cmd rest i, s.pending = .command cmd :: rest ∧ decode cmd = .command i ∧
      step s = exec i { s with pending := rest }) ∨
    (∃ cmd rest why, s.pending = .command cmd :: rest ∧ decode cmd = .reserved why ∧
      step s = .next { s with pending := rest }) := by
  unfold step takeStimulus
  cases hq : s.pending with
  | nil => exact .inl ⟨rfl, rfl⟩
  | cons x rest =>
    cases x with
    | reset => exact .inr (.inl ⟨rest, rfl, rfl⟩)
    | command cmd =>
      cases hd : decode cmd with
      | command i => exact .inr (.inr (.inl ⟨cmd, rest, i, rfl, hd, by simp [hd]⟩))
      | reserved why => exact .inr (.inr (.inr ⟨cmd, rest, why, rfl, hd, by simp [hd]⟩))

end Sys2Proof.Machine
end

