-- ==== Sys2Proof/Laws/PerInstr.lean ====
section
/-!
SUPPORT. The per-instruction family EncodeSelectsRow: the word the encoder writes for a command selects that command's own row
of the opcode map (30_encoding.md R45).
-/

namespace Sys2Proof.Laws.EncodeSelectsRow

open Sys2Proof

/-- The encoded word of a command selects the row of its opcode (R45). -/
def Statement (i : Instr) : Prop := ∃ row, opcodeMap[opcodeOf i]? = some row ∧ row.selects (encode i) = true

/-- A word built from fields agrees with a pattern on a mask when every bit does. -/
theorem masked_eq {cmd mask pattern : Word}
    (h : ∀ k, k < 24 → (cmd.getLsbD k && mask.getLsbD k) = pattern.getLsbD k) : (cmd &&& mask) = pattern := by
  apply BitVec.eq_of_getLsbD_eq
  intro k hk
  rw [BitVec.getLsbD_and]
  exact h k hk

/-- A row without a `p` field is selected by its fixed bits alone. -/
theorem selects_plain {cmd mask pattern : Word} (h : (cmd &&& mask) = pattern) :
    (OpcodeRow.mk mask pattern false).selects cmd = true := by
  simp [OpcodeRow.selects, h]

/-- A row with a `p` field is selected when its fixed bits agree and the field is a port. -/
theorem selects_port {cmd mask pattern : Word} {p : Port} (h : (cmd &&& mask) = pattern)
    (hp : pField cmd = portBits p) : (OpcodeRow.mk mask pattern true).selects cmd = true := by
  have notThree : (portBits p == 3) = false := beq_eq_false_iff_ne.mpr (portBits_ne_three p)
  simp only [OpcodeRow.selects, h, hp, notThree, BEq.rfl, Bool.and_false, Bool.not_false, Bool.and_self]

theorem nop : Statement .nop := ⟨_, rfl, by decide⟩

theorem init (w r : Byte) : Statement (.init w r) := by
  refine ⟨_, rfl, selects_plain (masked_eq fun k hk => ?_)⟩
  rw [encode, getLsbD_wordOfFields]
  interval_cases k <;> simp

theorem setdir (d : BitVec 3) : Statement (.setdir d) := by
  refine ⟨_, rfl, selects_plain (masked_eq fun k hk => ?_)⟩
  rw [encode, getLsbD_wordOfFields]
  interval_cases k <;> simp

theorem scan (p : Port) (raw : Byte) : Statement (.scan p raw) := by
  refine ⟨_, rfl, selects_port (p := p) (masked_eq fun k hk => ?_) (by simp [encode])⟩
  rw [encode, getLsbD_wordOfFields]
  interval_cases k <;> simp

theorem report (p : Port) : Statement (.report p) := by
  refine ⟨_, rfl, selects_port (p := p) (masked_eq fun k hk => ?_) (by simp [encode])⟩
  rw [encode, getLsbD_wordOfFields]
  interval_cases k <;> simp

theorem resync (p : Port) (owed : Bool) : Statement (.resync p owed) := by
  refine ⟨_, rfl, selects_port (p := p) (masked_eq fun k hk => ?_) (by simp [encode])⟩
  rw [encode, getLsbD_wordOfFields]
  interval_cases k <;> simp

theorem tick (p : Port) (raw : Byte) (owed : Bool) : Statement (.tick p raw owed) := by
  refine ⟨_, rfl, selects_port (p := p) (masked_eq fun k hk => ?_) (by simp [encode])⟩
  rw [encode, getLsbD_wordOfFields]
  interval_cases k <;> simp

theorem dispatch (idx : Byte) (level : Bool) : Statement (.dispatch idx level) := by
  refine ⟨_, rfl, selects_plain (masked_eq fun k hk => ?_)⟩
  rw [encode, getLsbD_wordOfFields]
  interval_cases k <;> simp

end Sys2Proof.Laws.EncodeSelectsRow
end

