-- ==== Sys2Proof/Tests/Slice0.lean ====
section
/-!
SUPPORT. Tests: the smoke tests of the checks, decoded words written out from the spec's encodings, one or two single steps of
every command with results taken from 95_test_vectors.md, and a witness for every statement that has hypotheses.
-/

namespace Sys2Proof.Tests

open Sys2Proof Sys2Proof.Machine

/-! ### Small states -/

/-- The example binding of R8: `BIND_N = 12`, `BIND(i) = (i div 4, i mod 4)`; `RESET_DELAY = 4` as in vector T7. -/
def exampleBoard : Board where
  resetDelay := 4
  bind := [(0, 0), (0, 1), (0, 2), (0, 3), (1, 0), (1, 1), (1, 2), (1, 3), (2, 0), (2, 1), (2, 2), (2, 3)]

/-- The reset state of an instance with the example binding. -/
def base : State := State.resetWith exampleBoard

/-- A cell put in place. -/
def withCell (p : Port) (j : Pin) (c : Cell) (s : State) : State :=
  s.setPort p { s.port p with cells := (s.port p).cells.set j c }

/-- A direction put in place. -/
def withDir (p : Port) (d : Direction) (s : State) : State := s.setPort p { s.port p with dir := d }

/-- `WIDTH` and `DELAY` put in place. -/
def withWindow (w : Nibble) (d : Byte) (s : State) : State := { s with width := w, delay := d }

/-- What the environment will do put in place. -/
def presented (xs : List Stimulus) (s : State) : State := { s with pending := xs }

/-- An asserted cell. -/
def asserted : Cell := { hist := 0x01, cnt := 1, fs := true }

/-- The next state of an outcome, for outcomes that have one. -/
def nextOf (o : Host.Outcome State Fault Refusal) : State :=
  match o with
  | .next t => t
  | _ => base

/-! ### The checks refuse -/

theorem test_init_width_range : (SourceCommand.init 256 0).wellFormed = false := by decide
theorem test_init_delay_range : (SourceCommand.init 0 256).wellFormed = false := by decide
theorem test_setdir_range : (SourceCommand.setdir 8).wellFormed = false := by decide
theorem test_scan_port_range : (SourceCommand.scan 3 0).wellFormed = false := by decide
theorem test_scan_raw_range : (SourceCommand.scan 0 256).wellFormed = false := by decide
theorem test_report_port_range : (SourceCommand.report 3).wellFormed = false := by decide
theorem test_resync_port_range : (SourceCommand.resync 3 0).wellFormed = false := by decide
theorem test_resync_owed_range : (SourceCommand.resync 0 2).wellFormed = false := by decide
theorem test_tick_port_range : (SourceCommand.tick 3 0 0).wellFormed = false := by decide
theorem test_tick_raw_range : (SourceCommand.tick 0 256 0).wellFormed = false := by decide
theorem test_tick_owed_range : (SourceCommand.tick 0 0 2).wellFormed = false := by decide
theorem test_dispatch_index_range : (SourceCommand.dispatch 256 0).wellFormed = false := by decide
theorem test_dispatch_level_range : (SourceCommand.dispatch 0 2).wellFormed = false := by decide
theorem test_board_size : (Board.mk 0 (List.replicate 257 (0, 0))).wellFormed = false := by
  simp only [Board.wellFormed, List.length_replicate]; decide
theorem test_checks_accept : (SourceCommand.init 255 255).wellFormed && (SourceCommand.tick 2 255 1).wellFormed &&
    (SourceCommand.dispatch 255 1).wellFormed && exampleBoard.wellFormed = true := by decide

/-! ### Words (95_test_vectors.md 2.7) -/

theorem test_decode_nop : decode 0b000000000000000000000000 = .command .nop := by decide
theorem test_decode_init : decode 0b000100000000001100000010 = .command (.init 3 2) := by decide
theorem test_decode_init_largest : decode 0x10FFFF = .command (.init 255 255) := by decide
theorem test_decode_setdir : decode 0b001000000000000000000100 = .command (.setdir 4) := by decide
theorem test_decode_scan : decode 0b001101000000000010100101 = .command (.scan 1 0xA5) := by decide
theorem test_decode_report : decode 0b010010000000000000000000 = .command (.report 2) := by decide
theorem test_decode_resync : decode 0b010110010000000000000000 = .command (.resync 2 true) := by decide
theorem test_decode_tick : decode 0b011010010000000011111111 = .command (.tick 2 0xFF true) := by decide
theorem test_decode_dispatch : decode 0b011100010000000000000101 = .command (.dispatch 5 true) := by decide
theorem test_reserved_must_be_zero :
    [0x000001, 0x110000, 0x140302, 0x200008, 0x3001A5, 0x410000, 0x5A0000, 0x500001, 0x6B00FF, 0x600100, 0x720005,
      0x740005, 0x710105].all (fun cmd => decode cmd == .reserved .mustBeZero) = true := by decide
theorem test_reserved_port :
    [0x3C00A5, 0x4C0000, 0x5D0000, 0x6D0000].all (fun cmd => decode cmd == .reserved .port) = true := by decide
theorem test_reserved_opcode : [0x800000, 0xFFFFFF].all (fun cmd => decode cmd == .reserved .opcode) = true := by decide
theorem test_table_word : decodeTableWord 24 0x710005 = some (.dispatch 5 true) := by decide

theorem test_event_words :
    [Event.sendNibble 0 .high 0x8, .sendNibble 2 .low 0x5, .sendByte 2 0x81, .sendByte 0 0x00, .activity].map eventWord =
      [0x018, 0x205, 0x681, 0x400, 0x800] := by decide

theorem test_assembler_text :
    assembleText "INIT 3, 2 ; comment\n\nTICKALL 0x10, 0b11, 7, 1\nON 5".toList =
      some [0x100302, 0x610010, 0x650003, 0x690007, 0x710005] := by decide
theorem test_assembler_rejects : assembleText "SETDIR 8".toList = none := by decide

/-! ### NOP, INIT, SETDIR (K1, K8, K9) -/

theorem test_nop : step (presented [.command 0x000000] base) = .next base := rfl

/-- The state vector K8 starts from. -/
def beforeInit : State :=
  withDir 1 .output ((withCell 0 0 ⟨0x07, 2, true⟩ (withWindow 3 2 base)).setLastHi 0 0x8 |>.setOut 1 1 true)

theorem test_init : let t := nextOf (exec (.init 0 5) beforeInit)
    t.width = 1 ∧ t.delay = 5 ∧ t.cell 0 0 = ⟨0x00, 0, false⟩ ∧ t.lastHi 0 = 0x8 ∧ t.dir 1 = .output ∧
      t.outWires 1 = 0x02 ∧ t.events = [] := by decide
theorem test_init_clamps_high : (nextOf (exec (.init 255 255) base)).width = 8 := by decide

theorem test_setdir : let t := nextOf (exec (.setdir 0b100) base)
    t.dir 0 = .input ∧ t.dir 1 = .input ∧ t.dir 2 = .output := by decide

/-! ### The cell and SCAN (F12, S1, S3) -/

theorem test_filter_steps :
    filterStep 3 2 ⟨0x03, 2, false⟩ true = ⟨0x07, 2, true⟩ ∧ filterStep 3 2 ⟨0xFB, 0, false⟩ true = ⟨0xF7, 2, true⟩ ∧
    filterStep 3 2 ⟨0xFF, 2, true⟩ false = ⟨0xFE, 1, true⟩ ∧ filterStep 3 2 ⟨0x80, 0, false⟩ true = ⟨0x01, 2, false⟩ ∧
    filterStep 3 2 ⟨0x00, 0, false⟩ false = ⟨0x00, 0, false⟩ ∧ filterStep 3 2 ⟨0x04, 1, true⟩ false = ⟨0x08, 0, false⟩ ∧
    filterStep 3 2 ⟨0x04, 1, true⟩ true = ⟨0x09, 2, true⟩ ∧ filterStep 3 2 ⟨0x07, 0, true⟩ true = ⟨0x0F, 2, true⟩ := by
  decide

theorem test_scan : let t := nextOf (exec (.scan 1 0x81) (withWindow 1 1 base))
    t.cell 1 0 = ⟨0x01, 1, true⟩ ∧ t.cell 1 7 = ⟨0x01, 1, true⟩ ∧ t.fsWires 1 = 0x81 ∧ t.fsWires 0 = 0x00 ∧
      t.fsWires 2 = 0x00 ∧ t.lastLo 1 = 0 ∧ t.lastHi 1 = 0 ∧ t.events = [] := by decide
theorem test_scan_output_port : let s := withDir 0 .output (withWindow 1 1 base)
    nextOf (exec (.scan 0 0xFF) s) = s := by decide

/-! ### REPORT, RESYNC, TICK (E3, E6, Y1, Y3, T1) -/

/-- Port 2 with `FS[2] = 0xA5`. -/
def scannedA5 : State :=
  withCell 2 0 asserted (withCell 2 2 asserted (withCell 2 5 asserted (withCell 2 7 asserted base)))

theorem test_report : let t := nextOf (exec (.report 2) scannedA5)
    t.lastLo 2 = 0x5 ∧ t.lastHi 2 = 0xA ∧ t.events = [.sendNibble 2 .low 0x5, .sendNibble 2 .high 0xA] := by decide
theorem test_report_zeros : let t := nextOf (exec (.report 2) ((base.setLastLo 2 0x5).setLastHi 2 0xA))
    t.lastLo 2 = 0 ∧ t.lastHi 2 = 0 ∧ t.events = [.sendNibble 2 .low 0x0, .sendNibble 2 .high 0x0] := by decide

theorem test_resync : let t := nextOf (exec (.resync 2 true) (withCell 2 0 asserted (withCell 2 7 asserted base)))
    t.events = [.sendByte 2 0x81] ∧ t.lastLo 2 = 0 ∧ t.lastHi 2 = 0 := by decide
theorem test_resync_zero_byte : (nextOf (exec (.resync 0 true) base)).events = [.sendByte 0 0x00] := by decide

theorem test_tick : let t := nextOf (exec (.tick 0 0x10 true) (withWindow 1 1 base))
    t.fsWires 0 = 0x10 ∧ t.lastLo 0 = 0x8 ∧ t.events = [.sendNibble 0 .low 0x8, .sendByte 0 0x08] := by decide

/-! ### DISPATCH (X1, X8) -/

theorem test_dispatch : let t := nextOf (exec (.dispatch 5 true) (withDir 1 .output base))
    t.outWires 1 = 0x02 ∧ t.outWires 0 = 0x00 ∧ t.events = [.activity] := by decide
theorem test_dispatch_suppressed : let s := base.setOut 1 2 true
    nextOf (exec (.dispatch 6 false) s) = s := by decide

/-! ### The step -/

theorem test_step_reserved : step (presented [.command 0x3C00A5, .reset] base) = .next (presented [.reset] base) := rfl
theorem test_step_idle : step base = .next base := rfl
theorem test_step_reset : let t := nextOf (step (presented [.reset] (beforeInit.emit .activity)))
    t.width = 3 ∧ t.delay = 4 ∧ t.lastHi 0 = 0x0 ∧ t.dir 1 = .input ∧ t.outWires 1 = 0x00 ∧ t.events = [] ∧
      t.allEvents = [.activity] := by decide
theorem test_first_instruction_after_reset :
    step (State.reset.withFetchWord 24 0x640081) = exec (.tick 1 0x81 false) State.reset := rfl

/-! ### Witnesses: states and operands that meet the hypotheses of a statement, one for each of its clauses -/

theorem witness_EncodeOfDecode : decode 0x3400A5 = .command (.scan 1 0xA5) := by decide
theorem witness_LegalWordCensus_first : [1, 65536, 8, 768, 3, 6, 1536, 512][0]? = some 1 := by decide
theorem witness_LegalWordCensus_last : [1, 65536, 8, 768, 3, 6, 1536, 512][7]? = some 512 := by decide
theorem witness_AssemblerRejectsOrIsExact : assembleLine (.on 255) = some [0x7100FF] := by decide
theorem witness_EventWordRoundTrip : eventOfWord 0x681 = some (.sendByte 2 0x81) := by decide
theorem witness_StepRunsDecodedCommand :
    (presented [.command 0x480000] base).pending = .command 0x480000 :: [] ∧ decode 0x480000 = .command (.report 2) := by
  decide
theorem witness_StepIgnoresReservedWord :
    (presented [.command 0x4C0000] base).pending = .command 0x4C0000 :: [] ∧ decode 0x4C0000 = .reserved .port := by decide
theorem witness_ResetEventResets : (presented [.reset] beforeInit).pending = .reset :: [] := by decide
theorem witness_IdleStepHoldsState : base.pending = [] := by decide
theorem witness_FetchWordRunsNext : decodeTableWord 24 0x480000 = some (.report 2) := by decide
theorem witness_WindowClamp_zero : (0 : Byte).toNat = 0 := by decide
theorem witness_WindowClamp_low : 1 ≤ (1 : Byte).toNat ∧ (1 : Byte).toNat ≤ 8 := by decide
theorem witness_WindowClamp_high : 1 ≤ (8 : Byte).toNat ∧ (8 : Byte).toNat ≤ 8 := by decide
theorem witness_WindowClamp_above : 9 ≤ (9 : Byte).toNat := by decide
theorem witness_MaskFromWidth_least : widthLegal (withWindow 1 0 base) := ⟨by decide, by decide⟩
theorem witness_MaskFromWidth_greatest : widthLegal (withWindow 8 0 base) := ⟨by decide, by decide⟩
theorem witness_FilterStepRegisters_other_cell : ((0 : Port), (6 : Pin)) ≠ (0, 7) := by decide
theorem witness_ScanStepsItsPort_input : base.dir 2 = .input ∧ (1 : Port) ≠ 2 := by decide
theorem witness_ScanStepsItsPort_output : (withDir 2 .output base).dir 2 = .output := by decide
theorem witness_ScanStepsItsPort_reserved :
    (0x3C00A5 : Word).extractLsb 23 20 = 0x3 ∧ (0x3C00A5 : Word).extractLsb 19 18 = 3 := by decide
theorem witness_ScanPinOrderIrrelevant :
    base.dir 0 = .input ∧ ([7, 6, 5, 4, 3, 2, 1, 0] : List Pin).Nodup ∧ ∀ j : Pin, j ∈ ([7, 6, 5, 4, 3, 2, 1, 0] : List Pin) := by
  decide
theorem witness_ScansRunEveryCell : base.dir 1 = .input := by decide
theorem witness_AssertionAfterFullWindow : 1 ≤ (8 : Nibble).toNat ∧ (8 : Nibble).toNat ≤ 8 ∧
    (filterRun 8 1 Cell.cleared (List.replicate 7 true)).fs = false := by decide
theorem witness_ReleaseAfterDelay_at_once : 1 ≤ (1 : Byte).toNat ∧ (filterStep 1 1 Cell.cleared true).fs = true ∧
    0 ≤ (1 : Byte).toNat := by decide
theorem witness_ReleaseAfterDelay_at_delay : 1 ≤ (255 : Byte).toNat ∧
    (filterStep 1 255 Cell.cleared true).fs = true ∧ 255 ≤ (255 : Byte).toNat := by decide
theorem witness_HoldWhileRefreshed : 1 ≤ (2 : Byte).toNat ∧ (filterStep 1 2 Cell.cleared true).fs = true ∧
    ¬ List.replicate (2 : Byte).toNat false <:+: [false, true, false] := by decide
theorem witness_ShortRunsNeverAssert_shorter : 1 ≤ (3 : Nibble).toNat ∧ (3 : Nibble).toNat ≤ 8 ∧
    ¬ List.replicate (3 : Nibble).toNat true <:+: [true, true, false] := by decide
theorem witness_ShortRunsNeverAssert_isolated : 1 ≤ (2 : Nibble).toNat ∧ (2 : Nibble).toNat ≤ 8 ∧
    2 ≤ (2 : Nibble).toNat ∧ ¬ [true, true] <:+: [true, false, true] := by decide
theorem witness_ZeroDelayFlickers : 1 ≤ (1 : Nibble).toNat ∧ (1 : Nibble).toNat ≤ 8 := by decide
theorem witness_OldSamplesNeverMatter : (7 : Nibble).toNat ≤ 8 ∧
    (∀ k, k < (7 : Nibble).toNat → (0xFF : Byte).getLsbD k = (0x7F : Byte).getLsbD k) ∧
    (Cell.mk 0xFF 0 false).cnt = (Cell.mk 0x7F 0 false).cnt ∧ (Cell.mk 0xFF 0 false).fs = (Cell.mk 0x7F 0 false).fs := by
  decide
theorem witness_NoFlickerOnceChanged_asserted : 1 ≤ (1 : Nibble).toNat ∧ (1 : Nibble).toNat ≤ 8 ∧ 1 ≤ (2 : Byte).toNat ∧
    Cell.cleared.fs = false ∧ (filterStep 1 2 Cell.cleared true).fs = true ∧ [false].length < (2 : Byte).toNat := by decide
theorem witness_NoFlickerOnceChanged_released : 1 ≤ (8 : Nibble).toNat ∧ (8 : Nibble).toNat ≤ 8 ∧ 1 ≤ (1 : Byte).toNat ∧
    asserted.fs = true ∧ (filterStep 8 1 asserted false).fs = false ∧
      (List.replicate 7 true).length < (8 : Nibble).toNat := by decide
theorem witness_ReportOnlyWhatChanged_nothing : reportedNow base 0 := ⟨by decide, by decide⟩
theorem witness_ReportOnlyWhatChanged_pin3 : reportedNow base 0 ∧ sameLast base (withCell 0 3 asserted base) 0 ∧
    (withCell 0 3 asserted base).fs 0 3 ≠ base.fs 0 3 ∧
    ∀ k, k ≠ 3 → (withCell 0 3 asserted base).fs 0 k = base.fs 0 k :=
  ⟨⟨by decide, by decide⟩, ⟨by decide, by decide⟩, by decide, by decide⟩
theorem witness_ReportOnlyWhatChanged_pin4 : reportedNow base 0 ∧ sameLast base (withCell 0 4 asserted base) 0 ∧
    (withCell 0 4 asserted base).fs 0 4 ≠ base.fs 0 4 ∧
    ∀ k, k ≠ 4 → (withCell 0 4 asserted base).fs 0 k = base.fs 0 k :=
  ⟨⟨by decide, by decide⟩, ⟨by decide, by decide⟩, by decide, by decide⟩
theorem witness_RepeatedCommandsIdempotent : ∃ p : Port, Instr.report 2 = .report p := ⟨2, rfl⟩
theorem witness_DispatchWritesBoundLatch_unbound : base.board.bind[(12 : Byte).toNat]? = none := by decide
theorem witness_DispatchWritesBoundLatch_written : base.board.bind[(11 : Byte).toNat]? = some (2, 3) ∧
    (withDir 2 .output base).dir 2 = .output := by decide
theorem witness_DispatchUnboundIgnored : base.board.bind.length ≤ (12 : Byte).toNat := by decide
theorem witness_DispatchToInputPortSuppressed :
    base.board.bind[(0 : Byte).toNat]? = some (0, 0) ∧ base.dir 0 = .input := by decide

/-- A DISPATCH to an Output port is presented. -/
def beforeDispatch : State := presented [.command 0x710005] (withDir 1 .output base)

theorem witness_OutputsChangeOnlyByPermittedDispatch : step beforeDispatch = .next (nextOf (step beforeDispatch)) ∧
    (nextOf (step beforeDispatch)).out 1 1 ≠ beforeDispatch.out 1 1 := ⟨rfl, by decide⟩
theorem witness_OutputsChange_by_reset : let s := presented [.reset] (base.setOut 0 7 true)
    step s = .next (nextOf (step s)) ∧ (nextOf (step s)).out 0 7 ≠ s.out 0 7 := ⟨rfl, by decide⟩

/-- A TICK of an Input port is presented. -/
def beforeTick : State := presented [.command 0x610010] (withWindow 1 1 base)

theorem witness_CellsChangeOnlyByScanInitReset : step beforeTick = .next (nextOf (step beforeTick)) ∧
    (nextOf (step beforeTick)).cell 0 4 ≠ beforeTick.cell 0 4 := ⟨rfl, by decide⟩
theorem witness_LastReportedChangesOnlyByReport : step beforeTick = .next (nextOf (step beforeTick)) ∧
    ¬ sameLast beforeTick (nextOf (step beforeTick)) 0 :=
  ⟨rfl, fun h => absurd h.1 (by decide)⟩
theorem witness_ConfigurationWriters_directions : let s := presented [.command 0x200004] base
    step s = .next (nextOf (step s)) ∧ ∃ p, (nextOf (step s)).dir p ≠ s.dir p := ⟨rfl, 2, by decide⟩
theorem witness_ConfigurationWriters_window : let s := presented [.command 0x100005] base
    step s = .next (nextOf (step s)) ∧ ¬ sameWindow s (nextOf (step s)) :=
  ⟨rfl, fun h => absurd h.1 (by decide)⟩
theorem witness_EventSequenceGrows : step beforeTick = .next (nextOf (step beforeTick)) := rfl
theorem witness_InvariantsKeptByEveryStep : Invariants beforeTick ∧ step beforeTick = .next (nextOf (step beforeTick)) :=
  ⟨⟨⟨by decide, by decide⟩, fun p j => by revert p j; decide, fun _ p j => by revert p j; decide,
    fun p => ⟨by revert p; decide, by revert p; decide⟩⟩, rfl⟩
theorem witness_PortsServedInAnyOrder : tickPort (.scan 0 0xFF) = some 0 ∧ tickPort (.tick 2 0x01 true) = some 2 ∧
    (0 : Port) ≠ 2 := by decide
theorem witness_DispatchIndependentOfTicks : tickPort (.report 1) = some 1 := by decide

/-- Port 0 reported, port 1 served, port 2 not yet served. -/
def partOfTick : List Instr := [.tick 1 0x01 true, .scan 0 0x02, .report 0]

/-- The phases `partOfTick` ends in. -/
def partOfTickPhases : TickPhases := #v[.reported, .served, .waiting]

theorem witness_DisciplinedTicksReportEveryChange : advanceTicks betweenTicks partOfTick = some partOfTickPhases ∧
    execAll partOfTick base = .next (nextOf (execAll partOfTick base)) ∧
      partOfTickPhases[(0 : Port)] = .reported ∧ partOfTickPhases[(1 : Port)] = .served :=
  ⟨by decide, rfl, by decide, by decide⟩
theorem witness_DisciplinedTicks_end_of_tick :
    let s := nextOf (execAll partOfTick (withWindow 1 1 base))
    let phases : TickPhases := #v[.served, .served, .waiting]
    nothingUnreported phases s ∧ advanceTick phases (.tick 2 0xFF true) = some betweenTicks ∧
      isTickCommand (.tick 2 0xFF true) = true ∧
      exec (.tick 2 0xFF true) s = .next (nextOf (exec (.tick 2 0xFF true) s)) := by
  refine ⟨fun p hp => ?_, by decide, by decide, rfl⟩
  have h : ∀ p : Port, p ≠ 2 →
      (nextOf (execAll partOfTick (withWindow 1 1 base))).lastLo p =
          (nextOf (execAll partOfTick (withWindow 1 1 base))).packLo p ∧
        (nextOf (execAll partOfTick (withWindow 1 1 base))).lastHi p =
          (nextOf (execAll partOfTick (withWindow 1 1 base))).packHi p := by decide
  exact h p (fun e => by subst e; revert hp; decide)
theorem test_discipline_refuses : advanceTicks betweenTicks [.report 0, .scan 0 0x01] = none ∧
    advanceTicks betweenTicks [.scan 0 0x01, .setdir 0] = none ∧ bootsBeforeTicks [.init 3 2, .scan 0 1, .setdir 0] = false ∧
      bootsBeforeTicks [.setdir 0, .init 3 2, .scan 0 1] = true := by decide

end Sys2Proof.Tests
end

