-- ==== Sys2Proof/Proofs/StateRules.lean ====
section
/-!
PROOFS. What the registers' derived values are (10_state.md): the filter mask as a number (R20).
-/

namespace Sys2Proof.Machine

/-- The mask as a number, read off its bits: beyond bit 7 there is none, and a window of at most 8 samples asks for none
(R20). For a wider one the equation fails, as the mask is cut to 8 bits. -/
theorem toNat_maskOf (width : Nibble) (hle : width.toNat ≤ 8) : (maskOf width).toNat = 2 ^ width.toNat - 1 := by
  apply Nat.eq_of_testBit_eq
  intro k
  rw [Nat.testBit_two_pow_sub_one, BitVec.testBit_toNat]
  by_cases hk : k < 8
  · exact getLsbD_maskOf width k hk
  · have beyond : ¬ k < width.toNat := by omega
    rw [BitVec.getLsbD_of_ge _ k (by omega), decide_eq_false beyond]

/-- Settles O24: the number and the bits of the mask, each from its lemma about `maskOf`. -/
theorem maskFromWidth : Obligations.MaskFromWidth := by
  unfold Obligations.MaskFromWidth
  rintro s ⟨-, hle⟩
  exact ⟨toNat_maskOf s.width hle, fun k hk => getLsbD_maskOf s.width k hk⟩

end Sys2Proof.Machine
end

