-- ==== Sys2Proof/Proofs/FilterRules.lean ====
section
/-!
PROOFS. What one `filter_step` does to the registers (41_sample_filter.md R62): its own cell takes the three steps, and
everything else is as it was.
-/

namespace Sys2Proof.Machine

/-- Step 3 as one test per branch: a released cell asks for a full window, an asserted one for a running countdown (R62). -/
theorem nextFs_eq (width : Nibble) (hist cnt : Byte) (fs : Bool) : nextFs width hist cnt fs =
    if fs = false then decide (hist &&& maskOf width = maskOf width) else decide (cnt ≠ 0) := by
  rw [Bool.eq_iff_iff]
  cases fs with
  | false => rw [nextFs_released_iff, if_pos rfl, decide_eq_true_iff]
  | true => rw [nextFs_asserted_iff, if_neg (Bool.noConfusion ·), decide_eq_true_iff]

section FilterStepAt
variable (s : State) (p q : Port) (j k : Pin) (raw : Bool)

/-! ### The cells -/

@[simp] theorem State.cell_filterStepAt_self :
    (s.filterStepAt p j raw).cell p j = filterStep s.width s.delay (s.cell p j) raw := by
  rw [State.cell_filterStepAt, if_pos ⟨rfl, rfl⟩]

theorem State.cell_filterStepAt_ne (h : (q, k) ≠ (p, j)) : (s.filterStepAt p j raw).cell q k = s.cell q k := by
  rw [State.cell_filterStepAt, if_neg fun ⟨hq, hk⟩ => h (Prod.ext hq hk)]

/-! ### The frame -/

/-- Of a port group a filter step writes nothing but the cells. -/
theorem State.filterStepAt_port : (s.filterStepAt p j raw).port q =
    { s.port q with cells := ((s.filterStepAt p j raw).port q).cells } := by
  by_cases h : q = p
  · subst h
    rw [State.filterStepAt, State.port_setPort_self]
  · rw [State.filterStepAt_port_ne s p q j raw h]

@[simp] theorem State.filterStepAt_lastLo : (s.filterStepAt p j raw).lastLo q = s.lastLo q := by
  rw [State.lastLo, State.filterStepAt_port]; rfl
@[simp] theorem State.filterStepAt_lastHi : (s.filterStepAt p j raw).lastHi q = s.lastHi q := by
  rw [State.lastHi, State.filterStepAt_port]; rfl
@[simp] theorem State.filterStepAt_dir : (s.filterStepAt p j raw).dir q = s.dir q := by
  rw [State.dir, State.filterStepAt_port]; rfl
@[simp] theorem State.filterStepAt_out : (s.filterStepAt p j raw).out q k = s.out q k := by
  rw [State.out, State.filterStepAt_port]; rfl

end FilterStepAt

/-- Settles O25: the cell's own step register by register, then the other cells, then the frame. -/
theorem filterStepRegisters : Obligations.FilterStepRegisters := by
  unfold Obligations.FilterStepRegisters
  intro s p j raw t
  have own : t.cell p j = filterStep s.width s.delay (s.cell p j) raw := s.cell_filterStepAt_self p j raw
  have hist : t.hist p j = shiftHist (s.hist p j) raw := by rw [State.hist, own, filterStep_hist]; rfl
  have cnt : t.cnt p j = nextCnt s.delay (s.cnt p j) raw := by rw [State.cnt, own, filterStep_cnt]; rfl
  have fs : t.fs p j = nextFs s.width (t.hist p j) (t.cnt p j) (s.fs p j) := by
    rw [hist, cnt, State.fs, own, filterStep_fs]; rfl
  refine ⟨hist, cnt, fs.trans (nextFs_eq ..), ?otherCells, ?otherRegisters, ⟨rfl, rfl⟩, ⟨rfl, rfl⟩, ⟨rfl, rfl⟩⟩
  case otherCells =>
    intro q k other
    have same : t.cell q k = s.cell q k := s.cell_filterStepAt_ne p q j k raw other
    exact ⟨congrArg Cell.hist same, congrArg Cell.cnt same, congrArg Cell.fs same⟩
  case otherRegisters =>
    intro q
    exact ⟨⟨s.filterStepAt_lastLo p q j raw, s.filterStepAt_lastHi p q j raw⟩, s.filterStepAt_dir p q j raw,
      fun k => s.filterStepAt_out p q j k raw⟩

end Sys2Proof.Machine
end

