-- ==== Sys2Proof/Proofs/ScanOrder.lean ====
section
/-!
PROOFS. The 8 filter steps of a SCAN do not meet: each reads and writes its own cell and the shared `WIDTH` and `DELAY`, which
none of them writes. So any order of them writes the cells that doing them all at once writes (41_sample_filter.md R72).
-/

namespace Sys2Proof.Machine

/-- SCAN's answer, in terms of its work. -/
@[simp] theorem exec_scan (p : Port) (raw : Byte) (s : State) : exec (.scan p raw) s = .next (scanPort p raw s) := rfl

/-- The cells of port `p` once the pins of `pins`, and no others, have taken their filter step on `raw`. -/
def steppedCells (p : Port) (raw : Byte) (pins : List Pin) (s : State) : Vector Cell 8 :=
  Vector.ofFn fun k : Pin =>
    if k ∈ pins then filterStep s.width s.delay (s.cell p k) (rawSample raw k) else s.cell p k

section PinOrder
variable (s : State) (p : Port) (raw : Byte)

@[simp] theorem steppedCells_nil : steppedCells p raw [] s = (s.port p).cells := by
  ext1 k hk
  simp [steppedCells, State.cell]

/-- The other pins step from the state that the first pin's step left as they would have from the state before it. -/
theorem steppedCells_filterStepAt (j : Pin) (pins : List Pin) (hj : j ∉ pins) :
    steppedCells p raw pins (s.filterStepAt p j (rawSample raw j)) = steppedCells p raw (j :: pins) s := by
  refine congrArg Vector.ofFn (funext fun k => ?_)
  by_cases h : k = j
  · subst h
    rw [if_neg hj, if_pos List.mem_cons_self, State.cell_filterStepAt_self]
  · have other : (p, k) ≠ (p, j) := fun e => h (Prod.ext_iff.mp e).2
    rw [State.cell_filterStepAt_ne s p p j k _ other]
    simp only [List.mem_cons, h, false_or]
    rfl

/-- Filter steps of distinct pins, one after another, write the stepped cells of their port and nothing else. -/
theorem foldl_filterStepAt (pins : List Pin) (distinct : pins.Nodup) :
    pins.foldl (fun t j => t.filterStepAt p j (rawSample raw j)) s =
      s.setPort p { s.port p with cells := steppedCells p raw pins s } := by
  induction pins generalizing s with
  | nil => rw [steppedCells_nil]; exact (State.setPort_port s p).symm
  | cons j pins ih =>
    obtain ⟨hj, distinct⟩ := List.nodup_cons.mp distinct
    rw [List.foldl_cons, ih _ distinct, steppedCells_filterStepAt s p raw j pins hj]
    simp [State.filterStepAt]

/-- Once every pin has stepped, the port group is the one a scan pass makes all at once. -/
theorem steppedCells_of_forall_mem (pins : List Pin) (every : ∀ j, j ∈ pins) :
    { s.port p with cells := steppedCells p raw pins s } = stepCells s.width s.delay raw (s.port p) := by
  simp [steppedCells, stepCells, every, State.cell]

end PinOrder

/-- Settles O27: the steps in any order write the stepped cells, and with every pin among them that is the scan pass. -/
theorem scanPinOrderIrrelevant : Obligations.ScanPinOrderIrrelevant := by
  unfold Obligations.ScanPinOrderIrrelevant
  intro s p raw order input distinct every
  have inOrder : order.foldl (fun t j => t.filterStepAt p j (rawSample raw j)) s = scanPort p raw s := by
    rw [foldl_filterStepAt s p raw order distinct, steppedCells_of_forall_mem s p raw order every,
      scanPort_of_input s p raw input]
  rw [exec_scan]
  exact congrArg Host.Outcome.next inOrder.symm

end Sys2Proof.Machine
end

