-- ==== Sys2Proof/Proofs/DispatchRules.lean ====
section
/-!
PROOFS. What DISPATCH does with an index outside the addressed range (45_accessory_dispatcher.md R89).
-/

namespace Sys2Proof.Machine

/-- DISPATCH's answer, in terms of its work. -/
@[simp] theorem exec_dispatch (idx : Byte) (level : Bool) (s : State) :
    exec (.dispatch idx level) s = .next (dispatchLevel idx level s) := rfl

/-- An index that is bound to no pin is "not for me": the state is as it was (R89). -/
theorem dispatchLevel_of_unbound (s : State) (idx : Byte) (level : Bool) (unbound : boundPin s.board idx = none) :
    dispatchLevel idx level s = s := by
  rw [dispatchLevel, unbound]

/-- Settles O48: an index at or above `BIND_N` is bound to no pin, in whatever mode the ports are. -/
theorem dispatchUnboundIgnored : Obligations.DispatchUnboundIgnored := by
  unfold Obligations.DispatchUnboundIgnored
  intro s idx level beyond
  have unbound : boundPin s.board idx = none := (boundPin_eq_none s.board idx).mpr beyond
  rw [exec_dispatch, dispatchLevel_of_unbound s idx level unbound]

end Sys2Proof.Machine
end

/-!
PROOFS. The statements about the model itself, part by part: the encoding of commands, source lines and events; what each
command and each step does; the laws of a filter cell; scanning, reporting, resynchronising and dispatching; which step
writes which register; the invariants; independence and the caller's discipline.
-/

/-! ## The command encoding (30_encoding.md) -/

namespace Sys2Proof

/-! ### Slices of a word: which fields a slice is made of -/

section Slices
variable (cmd : Word)

/-- A slice is zero exactly when its upper and its lower part are. -/
theorem slice_eq_zero_split (hi lo mid : Nat) (h1 : lo ≤ mid) (h2 : mid < hi) :
    cmd.extractLsb hi lo = 0 ↔ cmd.extractLsb hi (mid + 1) = 0 ∧ cmd.extractLsb mid lo = 0 := by
  rw [slice_eq_zero_iff _ _ _ (by omega), slice_eq_zero_iff _ _ _ (by omega), slice_eq_zero_iff _ _ _ h1]
  constructor
  · exact fun zero => ⟨fun k h h' => zero k (by omega) h', fun k h h' => zero k h (by omega)⟩
  · rintro ⟨upper, lower⟩ k h h'
    by_cases hk : k ≤ mid
    · exact lower k h hk
    · exact upper k (by omega) h'

/-- A slice of one bit is zero exactly when that bit is. -/
theorem slice_eq_zero_bit (k : Nat) : cmd.extractLsb k k = 0 ↔ cmd.getLsbD k = false := by
  rw [slice_eq_zero_iff _ _ _ (le_refl k)]
  constructor
  · exact fun zero => zero k (le_refl k) (le_refl k)
  · rintro zero j h h'
    rw [show j = k by omega, zero]

theorem slice_15_0_eq_zero : cmd.extractLsb 15 0 = 0 ↔ aField cmd = 0 ∧ bField cmd = 0 :=
  slice_eq_zero_split cmd 15 0 7 (by decide) (by decide)

theorem slice_17_16_eq_zero : cmd.extractLsb 17 16 = 0 ↔ zField cmd = false ∧ fField cmd = false := by
  rw [slice_eq_zero_split cmd 17 16 16 (by decide) (by decide), slice_eq_zero_bit, slice_eq_zero_bit, zField, fField]

theorem slice_17_8_eq_zero :
    cmd.extractLsb 17 8 = 0 ↔ (zField cmd = false ∧ fField cmd = false) ∧ aField cmd = 0 := by
  rw [← slice_17_16_eq_zero]
  exact slice_eq_zero_split cmd 17 8 15 (by decide) (by decide)

theorem slice_17_0_eq_zero : cmd.extractLsb 17 0 = 0 ↔
    (zField cmd = false ∧ fField cmd = false) ∧ aField cmd = 0 ∧ bField cmd = 0 := by
  rw [← slice_17_16_eq_zero, ← slice_15_0_eq_zero]
  exact slice_eq_zero_split cmd 17 0 15 (by decide) (by decide)

theorem slice_19_17_eq_zero : cmd.extractLsb 19 17 = 0 ↔ pField cmd = 0 ∧ zField cmd = false := by
  rw [slice_eq_zero_split cmd 19 17 17 (by decide) (by decide), slice_eq_zero_bit, zField, pField]

theorem slice_19_16_eq_zero :
    cmd.extractLsb 19 16 = 0 ↔ pField cmd = 0 ∧ zField cmd = false ∧ fField cmd = false := by
  rw [← slice_17_16_eq_zero]
  exact slice_eq_zero_split cmd 19 16 17 (by decide) (by decide)

theorem slice_19_0_eq_zero : cmd.extractLsb 19 0 = 0 ↔
    (pField cmd = 0 ∧ zField cmd = false ∧ fField cmd = false) ∧ aField cmd = 0 ∧ bField cmd = 0 := by
  rw [← slice_19_16_eq_zero, ← slice_15_0_eq_zero]
  exact slice_eq_zero_split cmd 19 0 15 (by decide) (by decide)

/-- Field `b` is the zero-extension of its low 3 bits exactly when its other bits are zero. -/
theorem slice_7_3_eq_zero : cmd.extractLsb 7 3 = 0 ↔ bField cmd = (cmd.extractLsb 2 0).zeroExtend 8 := by
  rw [slice_eq_zero_iff _ _ _ (by decide), bField, BitVec.eq_of_getLsbD_eq_iff]
  simp only [BitVec.truncate_eq_setWidth, BitVec.getLsbD_setWidth, BitVec.getLsbD_extractLsb]
  grind

theorem slice_19_3_eq_zero : cmd.extractLsb 19 3 = 0 ↔
    (pField cmd = 0 ∧ zField cmd = false ∧ fField cmd = false) ∧ aField cmd = 0 ∧
      bField cmd = (cmd.extractLsb 2 0).zeroExtend 8 := by
  have low : cmd.extractLsb 15 3 = 0 ↔ aField cmd = 0 ∧ cmd.extractLsb 7 3 = 0 :=
    slice_eq_zero_split cmd 15 3 7 (by decide) (by decide)
  rw [← slice_19_16_eq_zero, ← slice_7_3_eq_zero, ← low]
  exact slice_eq_zero_split cmd 19 3 15 (by decide) (by decide)

/-- A mask of consecutive bits selects a slice. -/
theorem and_mask_eq_zero (mask : Word) (hi lo : Nat) (h : lo ≤ hi)
    (bits : ∀ k, k < 24 → mask.getLsbD k = decide (lo ≤ k ∧ k ≤ hi)) (hhi : hi < 24) :
    cmd &&& mask = 0 ↔ cmd.extractLsb hi lo = 0 := by
  rw [slice_eq_zero_iff _ _ _ h, BitVec.eq_of_getLsbD_eq_iff]
  simp only [BitVec.getLsbD_and, BitVec.ofNat_eq_ofNat, BitVec.getLsbD_zero, Bool.and_eq_false_iff]
  constructor
  · intro zero k h1 h2
    have := zero k (by omega)
    rw [bits k (by omega), decide_eq_true ⟨h1, h2⟩] at this
    simpa using this
  · intro zero k hk
    rw [bits k hk]
    by_cases hs : lo ≤ k ∧ k ≤ hi
    · exact .inl (zero k hs.1 hs.2)
    · exact .inr (decide_eq_false hs)

/-- A mask in two parts selects nothing exactly when neither part does. -/
theorem and_or_mask_eq_zero (m m' : Word) : cmd &&& (m ||| m') = 0 ↔ cmd &&& m = 0 ∧ cmd &&& m' = 0 := by
  rw [BitVec.and_or_distrib_left]
  exact BitVec.or_eq_zero_iff

end Slices

/-! ### The decoder, one equation per opcode (R45, R55) -/

section PerOpcode
variable (cmd : Word)

theorem decode_op_nop (h : opField cmd = 0x0) : decode cmd = decodePlain (cmd.extractLsb 19 0 == 0) .nop := by
  rw [decode, h]; rfl
theorem decode_op_init (h : opField cmd = 0x1) :
    decode cmd = decodePlain (cmd.extractLsb 19 16 == 0) (.init (aField cmd) (bField cmd)) := by
  rw [decode, h]; rfl
theorem decode_op_setdir (h : opField cmd = 0x2) :
    decode cmd = decodePlain (cmd.extractLsb 19 3 == 0) (.setdir (cmd.extractLsb 2 0)) := by
  rw [decode, h]; rfl
theorem decode_op_scan (h : opField cmd = 0x3) :
    decode cmd = decodeAtPort cmd (cmd.extractLsb 17 8 == 0) (.scan · (bField cmd)) := by
  rw [decode, h]; rfl
theorem decode_op_report (h : opField cmd = 0x4) :
    decode cmd = decodeAtPort cmd (cmd.extractLsb 17 0 == 0) .report := by
  rw [decode, h]; rfl
theorem decode_op_resync (h : opField cmd = 0x5) :
    decode cmd = decodeAtPort cmd (!zField cmd && cmd.extractLsb 15 0 == 0) (.resync · (fField cmd)) := by
  rw [decode, h]; rfl
theorem decode_op_tick (h : opField cmd = 0x6) :
    decode cmd = decodeAtPort cmd (!zField cmd && aField cmd == 0) (.tick · (bField cmd) (fField cmd)) := by
  rw [decode, h]; rfl
theorem decode_op_dispatch (h : opField cmd = 0x7) : decode cmd =
    decodePlain (cmd.extractLsb 19 17 == 0 && aField cmd == 0) (.dispatch (bField cmd) (fField cmd)) := by
  rw [decode, h]; rfl
theorem decode_op_reserved (h : 8 ≤ (opField cmd).toNat) : decode cmd = .reserved .opcode := by
  unfold decode
  split
  case h_9 => rfl
  all_goals omega

/-- The opcodes: the eight of the opcode map, and the reserved ones. -/
theorem opField_cases : opField cmd = 0x0 ∨ opField cmd = 0x1 ∨ opField cmd = 0x2 ∨ opField cmd = 0x3 ∨
    opField cmd = 0x4 ∨ opField cmd = 0x5 ∨ opField cmd = 0x6 ∨ opField cmd = 0x7 ∨ 8 ≤ (opField cmd).toNat := by
  generalize opField cmd = op
  revert op; decide

end PerOpcode

/-! ### What the two shapes of a decoder arm answer -/

theorem decodePlain_eq_command (zeros : Bool) (i j : Instr) :
    decodePlain zeros i = .command j ↔ zeros = true ∧ i = j := by
  cases zeros <;> simp [decodePlain]

theorem decodePlain_isReserved (zeros : Bool) (i : Instr) :
    (∃ why, decodePlain zeros i = .reserved why) ↔ ¬ zeros = true := by
  cases zeros <;> simp [decodePlain]

theorem decodeAtPort_eq_command (cmd : Word) (zeros : Bool) (f : Port → Instr) (j : Instr) :
    decodeAtPort cmd zeros f = .command j ↔ ∃ p, pField cmd = portBits p ∧ zeros = true ∧ f p = j := by
  simp only [← portOfBits_eq_some, decodeAtPort]
  cases portOfBits (pField cmd) <;> cases zeros <;> simp

theorem decodeAtPort_isReserved (cmd : Word) (zeros : Bool) (f : Port → Instr) :
    (∃ why, decodeAtPort cmd zeros f = .reserved why) ↔ pField cmd = 3 ∨ ¬ zeros = true := by
  rw [← portOfBits_eq_none, decodeAtPort]
  cases portOfBits (pField cmd) <;> cases zeros <;> simp

/-! ### The decoder and the encoder are inverse to each other (R44, R55) -/

/-- The low 3 bits of a word whose field `b` is a zero-extended 3-bit value. -/
theorem slice_2_0_wordOfFields (op : BitVec 4) (p : BitVec 2) (f : Bool) (a : Byte) (d : BitVec 3) :
    (wordOfFields op p f a (d.zeroExtend 8)).extractLsb 2 0 = d := by
  apply BitVec.eq_of_getLsbD_eq
  intro k hk
  rw [BitVec.getLsbD_extractLsb, getLsbD_wordOfFields]
  simp only [BitVec.truncate_eq_setWidth, BitVec.getLsbD_setWidth]
  grind

@[simp] theorem opField_encode (i : Instr) : opField (encode i) = BitVec.ofNat 4 (opcodeOf i) := by
  cases i <;> exact opField_wordOfFields ..

/-- Every encoded command is legal and decodes to itself: its unused fields are zero and its port is a port. -/
theorem decode_encode (i : Instr) : decode (encode i) = .command i := by
  have op := opField_encode i
  cases i with
  | nop => decide
  | init w r =>
    rw [decode_op_init _ op, decodePlain_eq_command, beq_iff_eq, slice_19_16_eq_zero]
    simp [encode]
  | setdir d =>
    rw [decode_op_setdir _ op, decodePlain_eq_command, beq_iff_eq, slice_19_3_eq_zero]
    simp only [encode, slice_2_0_wordOfFields]
    simp
  | scan p raw =>
    rw [decode_op_scan _ op, decodeAtPort_eq_command, beq_iff_eq, slice_17_8_eq_zero]
    simp [encode]
  | report p =>
    rw [decode_op_report _ op, decodeAtPort_eq_command, beq_iff_eq, slice_17_0_eq_zero]
    simp [encode]
  | resync p owed =>
    rw [decode_op_resync _ op, decodeAtPort_eq_command, Bool.and_eq_true, beq_iff_eq, slice_15_0_eq_zero]
    simp [encode]
  | tick p raw owed =>
    rw [decode_op_tick _ op, decodeAtPort_eq_command]
    simp [encode]
  | dispatch idx level =>
    rw [decode_op_dispatch _ op, decodePlain_eq_command, Bool.and_eq_true, beq_iff_eq, slice_19_17_eq_zero]
    simp [encode]

/-- A legal word is the encoding of its command: what the decoder asks to be zero is what the encoder leaves zero. -/
theorem encode_of_decode {cmd : Word} {i : Instr} (h : decode cmd = .command i) : encode i = cmd := by
  have fields := wordOfFields_fields cmd
  obtain op | op | op | op | op | op | op | op | op := opField_cases cmd
  · rw [decode_op_nop _ op, decodePlain_eq_command, beq_iff_eq, slice_19_0_eq_zero] at h
    obtain ⟨⟨⟨hp, hz, hf⟩, ha, hb⟩, rfl⟩ := h
    rw [← fields hz, op, hp, hf, ha, hb]; rfl
  · rw [decode_op_init _ op, decodePlain_eq_command, beq_iff_eq, slice_19_16_eq_zero] at h
    obtain ⟨⟨hp, hz, hf⟩, rfl⟩ := h
    rw [encode, ← op, ← hp, ← hf, fields hz]
  · rw [decode_op_setdir _ op, decodePlain_eq_command, beq_iff_eq, slice_19_3_eq_zero] at h
    obtain ⟨⟨⟨hp, hz, hf⟩, ha, hb⟩, rfl⟩ := h
    rw [encode, ← hb, ← op, ← hp, ← hf, ← ha, fields hz]
  · rw [decode_op_scan _ op, decodeAtPort_eq_command, beq_iff_eq, slice_17_8_eq_zero] at h
    obtain ⟨p, hp, ⟨⟨hz, hf⟩, ha⟩, rfl⟩ := h
    rw [encode, ← op, ← hp, ← hf, ← ha, fields hz]
  · rw [decode_op_report _ op, decodeAtPort_eq_command, beq_iff_eq, slice_17_0_eq_zero] at h
    obtain ⟨p, hp, ⟨⟨hz, hf⟩, ha, hb⟩, rfl⟩ := h
    rw [← fields hz, op, hp, hf, ha, hb]; rfl
  · rw [decode_op_resync _ op, decodeAtPort_eq_command, Bool.and_eq_true, beq_iff_eq, slice_15_0_eq_zero,
      Bool.not_eq_true'] at h
    obtain ⟨p, hp, ⟨hz, ha, hb⟩, rfl⟩ := h
    conv_rhs => rw [← fields hz, op, hp, ha, hb]
    rfl
  · rw [decode_op_tick _ op, decodeAtPort_eq_command, Bool.and_eq_true, beq_iff_eq, Bool.not_eq_true'] at h
    obtain ⟨p, hp, ⟨hz, ha⟩, rfl⟩ := h
    rw [encode, ← op, ← hp, ← ha, fields hz]
  · rw [decode_op_dispatch _ op, decodePlain_eq_command, Bool.and_eq_true, beq_iff_eq, beq_iff_eq,
      slice_19_17_eq_zero] at h
    obtain ⟨⟨⟨hp, hz⟩, ha⟩, rfl⟩ := h
    rw [encode, ← op, ← hp, ← ha, fields hz]
  · rw [decode_op_reserved _ op] at h
    exact Decoded.noConfusion h

/-- Settles O2, command by command in `decode_encode`. -/
theorem decodeOfEncode : Obligations.DecodeOfEncode := decode_encode

/-- Settles O3, opcode by opcode in `encode_of_decode`. -/
theorem encodeOfDecode : Obligations.EncodeOfDecode := fun _ _ => encode_of_decode

/-- Settles O1, word by word. -/
theorem vectorWordsDecode : Obligations.VectorWordsDecode := by
  unfold Obligations.VectorWordsDecode
  decide

/-- The words of opcode `k` are the encodings of the commands of opcode `k`. -/
theorem decodes_to_opcode_iff (cmd : Word) (k : Nat) :
    (∃ i, decode cmd = .command i ∧ opcodeOf i = k) ↔ ∃ i, encode i = cmd ∧ opcodeOf i = k := by
  constructor
  · rintro ⟨i, legal, op⟩
    exact ⟨i, encode_of_decode legal, op⟩
  · rintro ⟨i, rfl, op⟩
    exact ⟨i, decode_encode i, op⟩

/-! ### Reserved words (R44, R47) -/

/-- The must-be-zero bits of the eight formats, by opcode (R44). -/
def mustBeZeroMasks : List Word :=
  [0x0FFFFF, 0x0F0000, 0x0FFFF8, 0x03FF00, 0x03FFFF, 0x02FFFF, 0x02FF00, 0x0EFF00]

/-- A word of opcode `k` is reserved exactly when a must-be-zero bit of its format is 1 or its format has a port field
that is 3. -/
def ReservedInFormat (cmd : Word) (k : Nat) : Prop :=
  (∃ zeros, mustBeZeroMasks[k]? = some zeros ∧ cmd &&& zeros ≠ 0) ∨ (k ∈ [3, 4, 5, 6] ∧ pField cmd = 3)

section Formats
variable (cmd : Word)

theorem and_zeros_op_resync :
    cmd &&& 0x02FFFF = 0 ↔ (!zField cmd && cmd.extractLsb 15 0 == 0) = true := by
  rw [show (0x02FFFF : Word) = 0x020000 ||| 0x00FFFF from rfl, and_or_mask_eq_zero,
    and_mask_eq_zero cmd 0x020000 17 17 (by decide) (by decide) (by decide),
    and_mask_eq_zero cmd 0x00FFFF 15 0 (by decide) (by decide) (by decide), slice_eq_zero_bit, Bool.and_eq_true,
    beq_iff_eq, Bool.not_eq_true', zField]

theorem and_zeros_op_tick : cmd &&& 0x02FF00 = 0 ↔ (!zField cmd && aField cmd == 0) = true := by
  rw [show (0x02FF00 : Word) = 0x020000 ||| 0x00FF00 from rfl, and_or_mask_eq_zero,
    and_mask_eq_zero cmd 0x020000 17 17 (by decide) (by decide) (by decide),
    and_mask_eq_zero cmd 0x00FF00 15 8 (by decide) (by decide) (by decide), slice_eq_zero_bit, Bool.and_eq_true,
    beq_iff_eq, Bool.not_eq_true', zField, aField]

theorem and_zeros_op_dispatch :
    cmd &&& 0x0EFF00 = 0 ↔ (cmd.extractLsb 19 17 == 0 && aField cmd == 0) = true := by
  rw [show (0x0EFF00 : Word) = 0x0E0000 ||| 0x00FF00 from rfl, and_or_mask_eq_zero,
    and_mask_eq_zero cmd 0x0E0000 19 17 (by decide) (by decide) (by decide),
    and_mask_eq_zero cmd 0x00FF00 15 8 (by decide) (by decide) (by decide), Bool.and_eq_true, beq_iff_eq, beq_iff_eq,
    aField]

end Formats

/-- The words of an opcode of the map that are reserved. -/
theorem reserved_iff_of_opcode (cmd : Word) (h : (opField cmd).toNat < 8) :
    (∃ why, decode cmd = .reserved why) ↔ ReservedInFormat cmd (opField cmd).toNat := by
  obtain op | op | op | op | op | op | op | op | op := opField_cases cmd
  · rw [decode_op_nop _ op, decodePlain_isReserved, beq_iff_eq,
      ← and_mask_eq_zero cmd 0x0FFFFF 19 0 (by decide) (by decide) (by decide), op]
    simp [ReservedInFormat, mustBeZeroMasks]
  · rw [decode_op_init _ op, decodePlain_isReserved, beq_iff_eq,
      ← and_mask_eq_zero cmd 0x0F0000 19 16 (by decide) (by decide) (by decide), op]
    simp [ReservedInFormat, mustBeZeroMasks]
  · rw [decode_op_setdir _ op, decodePlain_isReserved, beq_iff_eq,
      ← and_mask_eq_zero cmd 0x0FFFF8 19 3 (by decide) (by decide) (by decide), op]
    simp [ReservedInFormat, mustBeZeroMasks]
  · rw [decode_op_scan _ op, decodeAtPort_isReserved, beq_iff_eq,
      ← and_mask_eq_zero cmd 0x03FF00 17 8 (by decide) (by decide) (by decide), op]
    simp [ReservedInFormat, mustBeZeroMasks, or_comm]
  · rw [decode_op_report _ op, decodeAtPort_isReserved, beq_iff_eq,
      ← and_mask_eq_zero cmd 0x03FFFF 17 0 (by decide) (by decide) (by decide), op]
    simp [ReservedInFormat, mustBeZeroMasks, or_comm]
  · rw [decode_op_resync _ op, decodeAtPort_isReserved, ← and_zeros_op_resync, op]
    simp [ReservedInFormat, mustBeZeroMasks, or_comm]
  · rw [decode_op_tick _ op, decodeAtPort_isReserved, ← and_zeros_op_tick, op]
    simp [ReservedInFormat, mustBeZeroMasks, or_comm]
  · rw [decode_op_dispatch _ op, decodePlain_isReserved, ← and_zeros_op_dispatch, op]
    simp [ReservedInFormat, mustBeZeroMasks]
  · omega

/-- Settles O5: an opcode above the map is reserved whatever the other bits are, the others by their format. -/
theorem reservedWordsExactly : Obligations.ReservedWordsExactly := by
  unfold Obligations.ReservedWordsExactly
  intro cmd
  show _ ↔ 8 ≤ (opField cmd).toNat ∨ ReservedInFormat cmd (opField cmd).toNat
  by_cases h : (opField cmd).toNat < 8
  · rw [reserved_iff_of_opcode cmd h, or_iff_right (by omega)]
  · have above : 8 ≤ (opField cmd).toNat := by omega
    exact iff_of_true ⟨_, decode_op_reserved cmd above⟩ (.inl above)

/-! ### The opcode map (R45) -/

/-- The rows of the map: each fixes the opcode and the must-be-zero bits of its format, and has a port field where its
format has one. -/
theorem opcodeMap_row {k : Nat} {row : OpcodeRow} (h : opcodeMap[k]? = some row) :
    (row.mask &&& 0xF00000 = 0xF00000 ∧ (row.pattern &&& 0xF00000).extractLsb 23 20 = BitVec.ofNat 4 k) ∧
      (∃ zeros, mustBeZeroMasks[k]? = some zeros ∧ row.mask &&& zeros = zeros ∧ row.pattern &&& zeros = 0) ∧
      (k ∈ [3, 4, 5, 6] → row.hasPort = true) := by
  have hk : k < 8 := (List.getElem?_eq_some_iff.mp h).1
  interval_cases k <;> cases h <;>
    exact ⟨⟨by decide, by decide⟩, ⟨_, rfl, by decide, by decide⟩, by decide⟩

/-- A word that agrees with a pattern on a mask agrees with it on every part of the mask. -/
theorem and_submask {cmd mask pattern part : Word} (h : cmd &&& mask = pattern) (sub : mask &&& part = part) :
    cmd &&& part = pattern &&& part := by
  rw [← h, BitVec.and_assoc, sub]

/-- The opcode of a word is the slice of its four highest bits. -/
theorem opField_eq_masked (cmd : Word) : opField cmd = (cmd &&& 0xF00000).extractLsb 23 20 := by
  apply BitVec.eq_of_getLsbD_eq
  intro k hk
  rw [opField, BitVec.getLsbD_extractLsb, BitVec.getLsbD_extractLsb, BitVec.getLsbD_and]
  interval_cases k <;> simp

/-- A word that row `k` selects has opcode `k` and is not reserved. -/
theorem decode_of_selects {cmd : Word} {k : Nat} {row : OpcodeRow} (h : opcodeMap[k]? = some row)
    (selected : row.selects cmd = true) : ∃ i, decode cmd = .command i ∧ opcodeOf i = k := by
  obtain ⟨⟨opMask, opBits⟩, ⟨zeros, hzeros, sub, zeroBits⟩, port⟩ := opcodeMap_row h
  have hk : k < 8 := (List.getElem?_eq_some_iff.mp h).1
  rw [OpcodeRow.selects, Bool.and_eq_true, beq_iff_eq, Bool.not_eq_true'] at selected
  obtain ⟨agree, notThree⟩ := selected
  have op : opField cmd = BitVec.ofNat 4 k := by
    rw [opField_eq_masked, and_submask agree opMask, opBits]
  have opNat : (opField cmd).toNat = k := by
    rw [op, BitVec.toNat_ofNat]; omega
  have legal : ¬ ∃ why, decode cmd = .reserved why := by
    rw [reserved_iff_of_opcode cmd (by omega), opNat]
    rintro (⟨zeros', hzeros', bad⟩ | ⟨hasPort, three⟩)
    · obtain rfl : zeros = zeros' := Option.some.inj (hzeros.symm.trans hzeros')
      exact bad ((and_submask agree sub).trans zeroBits)
    · rw [port hasPort, three] at notThree
      exact absurd notThree (by decide)
  cases d : decode cmd with
  | reserved why => exact absurd ⟨why, d⟩ legal
  | command i =>
    have opOf : opcodeOf i < 8 := by cases i <;> simp [opcodeOf]
    have same := opField_encode i
    rw [encode_of_decode d, op] at same
    have := congrArg BitVec.toNat same
    simp only [BitVec.toNat_ofNat] at this
    exact ⟨i, rfl, by omega⟩

/-- Every encoded command selects its row of the map. -/
theorem encode_selects (i : Instr) : ∃ row, opcodeMap[opcodeOf i]? = some row ∧ row.selects (encode i) = true := by
  cases i with
  | nop => exact Laws.EncodeSelectsRow.nop
  | init w r => exact Laws.EncodeSelectsRow.init w r
  | setdir d => exact Laws.EncodeSelectsRow.setdir d
  | scan p raw => exact Laws.EncodeSelectsRow.scan p raw
  | report p => exact Laws.EncodeSelectsRow.report p
  | resync p owed => exact Laws.EncodeSelectsRow.resync p owed
  | tick p raw owed => exact Laws.EncodeSelectsRow.tick p raw owed
  | dispatch idx level => exact Laws.EncodeSelectsRow.dispatch idx level

/-- Settles O4: a legal word is an encoded command, which selects its row; a selected word has the row's opcode and meets
no condition for being reserved. -/
theorem decodeFollowsOpcodeMap : Obligations.DecodeFollowsOpcodeMap := by
  unfold Obligations.DecodeFollowsOpcodeMap
  intro cmd k
  constructor
  · rintro ⟨i, legal, rfl⟩
    rw [← encode_of_decode legal]
    exact encode_selects i
  · rintro ⟨row, hrow, selected⟩
    exact decode_of_selects hrow selected

/-! ### The census of legal words (R48) -/

/-- Every value of `n` bits, once. -/
def allWords (n : Nat) : List (BitVec n) := (List.finRange (2 ^ n)).map BitVec.ofFin

@[simp] theorem mem_allWords {n : Nat} (v : BitVec n) : v ∈ allWords n :=
  List.mem_map.mpr ⟨v.toFin, List.mem_finRange _, rfl⟩

@[simp] theorem length_allWords (n : Nat) : (allWords n).length = 2 ^ n := by
  rw [allWords, List.length_map, List.length_finRange]

theorem nodup_allWords (n : Nat) : (allWords n).Nodup :=
  (List.nodup_finRange _).map fun _ _ h => congrArg BitVec.toFin h

/-- Every command of opcode `k`, once. -/
def commandsOf : Nat → List Instr
  | 0 => [.nop]
  | 1 => (allWords 8 ×ˢ allWords 8).map fun x => .init x.1 x.2
  | 2 => (allWords 3).map .setdir
  | 3 => (List.finRange 3 ×ˢ allWords 8).map fun x => .scan x.1 x.2
  | 4 => (List.finRange 3).map .report
  | 5 => (List.finRange 3 ×ˢ [false, true]).map fun x => .resync x.1 x.2
  | 6 => (List.finRange 3 ×ˢ allWords 8 ×ˢ [false, true]).map fun x => .tick x.1 x.2.1 x.2.2
  | 7 => (allWords 8 ×ˢ [false, true]).map fun x => .dispatch x.1 x.2
  | _ => []

theorem mem_commandsOf (i : Instr) (k : Nat) : i ∈ commandsOf k ↔ opcodeOf i = k := by
  constructor
  · intro h
    unfold commandsOf at h
    split at h
    case h_1 => rw [List.mem_singleton.mp h]; rfl
    case h_9 => exact absurd h List.not_mem_nil
    all_goals
      obtain ⟨_, -, rfl⟩ := List.mem_map.mp h
      rfl
  · rintro rfl
    cases i <;> simp [commandsOf, opcodeOf]

theorem nodup_commandsOf (k : Nat) : (commandsOf k).Nodup := by
  have bools : [false, true].Nodup := by decide
  have ports : (List.finRange 3).Nodup := List.nodup_finRange 3
  have bytes := nodup_allWords 8
  unfold commandsOf
  split
  · exact List.nodup_singleton _
  · exact (bytes.product bytes).map fun _ _ h => by simpa [Prod.ext_iff] using h
  · exact (nodup_allWords 3).map fun _ _ h => by simpa using h
  · exact (ports.product bytes).map fun _ _ h => by simpa [Prod.ext_iff] using h
  · exact ports.map fun _ _ h => by simpa using h
  · exact (ports.product bools).map fun _ _ h => by simpa [Prod.ext_iff] using h
  · exact (ports.product (bytes.product bools)).map fun _ _ h => by simpa [Prod.ext_iff] using h
  · exact (bytes.product bools).map fun _ _ h => by simpa [Prod.ext_iff] using h
  · exact List.nodup_nil

theorem length_commandsOf {k count : Nat} (h : [1, 65536, 8, 768, 3, 6, 1536, 512][k]? = some count) :
    (commandsOf k).length = count := by
  have hk : k < 8 := (List.getElem?_eq_some_iff.mp h).1
  interval_cases k <;> cases h <;> simp [commandsOf, List.length_product]

theorem encode_injective : Function.Injective encode := fun i j h => by
  have := decode_encode i
  rw [h, decode_encode] at this
  exact (Decoded.command.inj this).symm

/-- Settles O6: the words of an opcode are the encodings of its commands, and the encoder is injective. -/
theorem legalWordCensus : Obligations.LegalWordCensus := by
  unfold Obligations.LegalWordCensus
  intro k count h
  refine ⟨(commandsOf k).map encode, (nodup_commandsOf k).map encode_injective, ?_, fun cmd => ?_⟩
  · rw [List.length_map, length_commandsOf h]
  · rw [decodes_to_opcode_iff, List.mem_map]
    simp only [mem_commandsOf, and_comm]

/-! ### The assembler (R53, R54) -/

@[simp] theorem toNat_portBits (p : Port) : (portBits p).toNat = p.val := by
  rw [portBits, BitVec.toNat_ofNat]; omega

/-- Settles O7: the number of a word is the sum of its shifted fields. -/
theorem encodingFormulas : Obligations.EncodingFormulas := by
  unfold Obligations.EncodingFormulas
  simp only [encode, toNat_wordOfFields, toNat_portBits, Nat.shiftLeft_eq]
  refine ⟨rfl, ?_, fun d => ?_, ?_, ?_, ?_, ?_, ?_⟩
  case refine_2 =>
    rw [show (d.zeroExtend 8).toNat = d.toNat from BitVec.toNat_setWidth_of_le (by decide)]
    rfl
  all_goals
    intros
    simp

end Sys2Proof

namespace Sys2Proof.Machine

/-- A command whose operands are in range is a decoded command, written down. -/
theorem exists_sourceOf_of_wellFormed {c : SourceCommand} (h : c.wellFormed = true) : ∃ i, sourceOf i = c := by
  have byte : ∀ n : Nat, n ≤ 255 → (BitVec.ofNat 8 n).toNat = n := fun n hn => by rw [BitVec.toNat_ofNat]; omega
  have flag : ∀ n : Nat, n ≤ 1 → (decide (n = 1)).toNat = n := fun n hn => by interval_cases n <;> rfl
  cases c <;> simp only [SourceCommand.wellFormed, Bool.and_eq_true, decide_eq_true_eq] at h
  case nop => exact ⟨.nop, rfl⟩
  case init w r => exact ⟨.init (BitVec.ofNat 8 w) (BitVec.ofNat 8 r), by rw [sourceOf, byte w h.1, byte r h.2]⟩
  case setdir d =>
    refine ⟨.setdir (BitVec.ofNat 3 d), ?_⟩
    rw [sourceOf, BitVec.toNat_ofNat, Nat.mod_eq_of_lt (by omega)]
  case scan p raw =>
    exact ⟨.scan ⟨p, by omega⟩ (BitVec.ofNat 8 raw), by rw [sourceOf, byte raw h.2]⟩
  case report p => exact ⟨.report ⟨p, by omega⟩, rfl⟩
  case resync p owed => exact ⟨.resync ⟨p, by omega⟩ (decide (owed = 1)), by rw [sourceOf, flag owed h.2]⟩
  case tick p raw owed =>
    obtain ⟨⟨hp, hraw⟩, howed⟩ := h
    exact ⟨.tick ⟨p, by omega⟩ (BitVec.ofNat 8 raw) (decide (owed = 1)), by
      rw [sourceOf, byte raw hraw, flag owed howed]⟩
  case dispatch idx level =>
    exact ⟨.dispatch (BitVec.ofNat 8 idx) (decide (level = 1)), by rw [sourceOf, byte idx h.1, flag level h.2]⟩

/-- A decoded command has its operands in range. -/
theorem wellFormed_sourceOf (i : Instr) : (sourceOf i).wellFormed = true := by
  have flag : ∀ b : Bool, b.toNat ≤ 1 := by decide
  cases i <;> simp [sourceOf, SourceCommand.wellFormed, flag] <;> omega

/-- The assembler's word for a decoded command is its encoding. -/
theorem ofNat_sourceWord (i : Instr) : BitVec.ofNat 24 (sourceWord (sourceOf i)) = encode i := by
  obtain ⟨nop, init, setdir, scan, report, resync, tick, dispatch⟩ := encodingFormulas
  apply BitVec.eq_of_toNat_eq
  rw [BitVec.toNat_ofNat]
  refine (congrArg (· % 2 ^ 24) (?_ : _ = (encode i).toNat)).trans (Nat.mod_eq_of_lt (encode i).isLt)
  cases i <;> simp [sourceOf, sourceWord, wordNumber, *]

/-- A line that stands for decoded commands assembles to their encodings. -/
theorem assembleLine_of_expandLine {l : SourceLine} {is : List Instr} (h : expandLine l = is.map sourceOf) :
    assembleLine l = some (is.map encode) := by
  have legal : (is.map sourceOf).all SourceCommand.wellFormed = true := by
    simp only [List.all_map, List.all_eq_true]
    exact fun i _ => wellFormed_sourceOf i
  rw [assembleLine, h, if_pos legal, List.map_map]
  exact congrArg some (List.map_congr_left fun i _ => ofNat_sourceWord i)

/-- A line that is accepted stands for decoded commands. -/
theorem exists_expandLine_of_wellFormed {l : SourceLine} (h : (expandLine l).all SourceCommand.wellFormed = true) :
    ∃ is : List Instr, is.map sourceOf = expandLine l := by
  have : expandLine l ∈ Set.range (List.map sourceOf) := by
    rw [Set.range_list_map]
    exact fun c hc => exists_sourceOf_of_wellFormed (List.all_eq_true.mp h c hc)
  exact this

/-- Settles O8: an accepted line stands for decoded commands, and the words of those are their encodings. -/
theorem assemblerRejectsOrIsExact : Obligations.AssemblerRejectsOrIsExact := by
  unfold Obligations.AssemblerRejectsOrIsExact
  refine ⟨fun l => ⟨?rejects, fun words accepted => ?exact⟩, fun i => assembleLine_of_expandLine (is := [i]) rfl⟩
  case rejects => simp [assembleLine]
  case exact =>
    have legal : (expandLine l).all SourceCommand.wellFormed = true := by
      by_contra h
      rw [assembleLine, if_neg h] at accepted
      exact absurd accepted (by simp)
    obtain ⟨is, his⟩ := exists_expandLine_of_wellFormed legal
    rw [assembleLine_of_expandLine his.symm] at accepted
    obtain rfl := Option.some.inj accepted
    refine ⟨is, ?_, his⟩
    rw [List.map_map]
    exact List.map_congr_left fun i _ => decode_encode i

/-- Settles O9: each line expands to decoded commands. -/
theorem pseudoInstructionWords : Obligations.PseudoInstructionWords := by
  unfold Obligations.PseudoInstructionWords
  intro r0 r1 r2 idx owed
  exact ⟨assembleLine_of_expandLine (is := [.tick 0 r0 owed, .tick 1 r1 owed, .tick 2 r2 owed]) rfl,
    assembleLine_of_expandLine (is := [.dispatch idx true]) rfl,
    assembleLine_of_expandLine (is := [.dispatch idx false]) rfl, assembleLine_of_expandLine (is := [.setdir 0]) rfl⟩

/-! ### Event words (R50) -/

/-- The event word with the given fields: `kind @ ep @ data` (R50). -/
def eventWordOfFields (kind ep : BitVec 2) (data : Byte) : EventWord := kind ++ ep ++ data

section EventFields
variable (kind ep : BitVec 2) (data : Byte)

theorem getLsbD_eventWordOfFields (k : Nat) : (eventWordOfFields kind ep data).getLsbD k =
    if k < 8 then data.getLsbD k else if k < 10 then ep.getLsbD (k - 8) else kind.getLsbD (k - 10) := by
  change BitVec.getLsbD (w := 2 + 2 + 8) (kind ++ ep ++ data) k = _
  simp only [BitVec.getLsbD_append]
  grind

theorem toNat_eventWordOfFields :
    (eventWordOfFields kind ep data).toNat = kind.toNat * 2 ^ 10 + ep.toNat * 2 ^ 8 + data.toNat := by
  have shift : ∀ (x : Nat) {w : Nat} (y : BitVec w), x <<< w ||| y.toNat = x * 2 ^ w + y.toNat := by
    intro x w y
    rw [← Nat.shiftLeft_add_eq_or_of_lt y.isLt, Nat.shiftLeft_eq]
  simp only [eventWordOfFields, BitVec.toNat_append, shift]
  omega

@[simp] theorem kind_eventWordOfFields : (eventWordOfFields kind ep data).extractLsb 11 10 = kind := by
  apply BitVec.eq_of_getLsbD_eq
  intro k hk
  rw [BitVec.getLsbD_extractLsb, getLsbD_eventWordOfFields]
  grind

@[simp] theorem ep_eventWordOfFields : (eventWordOfFields kind ep data).extractLsb 9 8 = ep := by
  apply BitVec.eq_of_getLsbD_eq
  intro k hk
  rw [BitVec.getLsbD_extractLsb, getLsbD_eventWordOfFields]
  grind

/-- A slice of the data field is a slice of the word. -/
theorem slice_eventWordOfFields (hi lo : Nat) (h : lo ≤ hi) (h8 : hi < 8) :
    (eventWordOfFields kind ep data).extractLsb hi lo = data.extractLsb hi lo := by
  apply BitVec.eq_of_getLsbD_eq
  intro k hk
  rw [BitVec.getLsbD_extractLsb, BitVec.getLsbD_extractLsb, getLsbD_eventWordOfFields, if_pos (by omega)]

/-- An event word is the word of its own fields. -/
theorem eventWordOfFields_fields (evt : EventWord) :
    eventWordOfFields (evt.extractLsb 11 10) (evt.extractLsb 9 8) (evt.extractLsb 7 0) = evt := by
  apply BitVec.eq_of_getLsbD_eq
  intro k hk
  rw [getLsbD_eventWordOfFields]
  simp only [BitVec.getLsbD_extractLsb]
  grind

end EventFields

/-- The data field of a nibble request: three zero bits, the selector and the nibble (R50). -/
def nibbleData (which : Which) (v : Nibble) : Byte := (0 : BitVec 3) ++ BitVec.ofBool which.bit ++ v

theorem eventWord_sendNibble (p : Port) (which : Which) (v : Nibble) :
    eventWord (.sendNibble p which v) = eventWordOfFields 0 (portBits p) (nibbleData which v) := by
  apply BitVec.eq_of_getLsbD_eq
  intro k hk
  rw [getLsbD_eventWordOfFields]
  change BitVec.getLsbD (w := 2 + 2 + 3 + 1 + 4)
    ((0 : BitVec 2) ++ portBits p ++ (0 : BitVec 3) ++ BitVec.ofBool which.bit ++ v) k = _
  change _ = if k < 8 then BitVec.getLsbD (w := 3 + 1 + 4) ((0 : BitVec 3) ++ BitVec.ofBool which.bit ++ v) k else _
  simp only [BitVec.getLsbD_append, BitVec.getLsbD_ofBool]
  grind

theorem eventWord_sendByte (p : Port) (v : Byte) : eventWord (.sendByte p v) = eventWordOfFields 1 (portBits p) v := rfl

theorem toNat_nibbleData (which : Which) (v : Nibble) :
    (nibbleData which v).toNat = which.bit.toNat * 2 ^ 4 + v.toNat := by
  revert which v
  have h : ∀ (b : Bool) (v : Nibble), ((0 : BitVec 3) ++ BitVec.ofBool b ++ v).toNat = b.toNat * 2 ^ 4 + v.toNat := by
    decide
  exact fun which v => h which.bit v

/-- Settles O10: the number of an event word is the sum of its shifted fields, and no event has kind 3 or port 3. -/
theorem eventWordFormulas : Obligations.EventWordFormulas := by
  unfold Obligations.EventWordFormulas
  refine ⟨fun p v => ?_, fun p v => ?_, fun p v => ?_, rfl, fun e => ?_⟩
  · rw [eventWord_sendNibble, toNat_eventWordOfFields, toNat_portBits, toNat_nibbleData]
    simp [Which.bit]
  · rw [eventWord_sendNibble, toNat_eventWordOfFields, toNat_portBits, toNat_nibbleData]
    simp [Which.bit, Nat.add_assoc]
  · rw [eventWord_sendByte, toNat_eventWordOfFields, toNat_portBits]
    simp
  · cases e with
    | sendNibble p which v =>
      rw [eventWord_sendNibble, kind_eventWordOfFields, ep_eventWordOfFields]
      exact ⟨by decide, portBits_ne_three p⟩
    | sendByte p v =>
      rw [eventWord_sendByte, kind_eventWordOfFields, ep_eventWordOfFields]
      exact ⟨by decide, portBits_ne_three p⟩
    | activity => decide

/-! ### Reading an event word -/

section Reader
variable (p : Port) (kind ep : BitVec 2) (data : Byte)

theorem eventOfWord_kind_nibble : eventOfWord (eventWordOfFields 0 (portBits p) data) =
    if data.extractLsb 7 5 = 0 then some (.sendNibble p (Which.ofBit (data.getLsbD 4)) (data.extractLsb 3 0))
    else none := by
  rw [eventOfWord, kind_eventWordOfFields, ep_eventWordOfFields, portOfBits_portBits,
    slice_eventWordOfFields _ _ _ 7 5 (by decide) (by decide), slice_eventWordOfFields _ _ _ 3 0 (by decide) (by decide),
    getLsbD_eventWordOfFields, if_pos (by decide : 4 < 8)]
  simp only [beq_iff_eq]
  rfl

theorem eventOfWord_kind_byte : eventOfWord (eventWordOfFields 1 (portBits p) data) = some (.sendByte p data) := by
  rw [eventOfWord, kind_eventWordOfFields, ep_eventWordOfFields, portOfBits_portBits,
    slice_eventWordOfFields _ _ _ 7 0 (by decide) (by decide)]
  exact congrArg (fun v => some (Event.sendByte p v)) (BitVec.extractLsb'_eq_self ..)

theorem eventOfWord_kind_activity : eventOfWord (eventWordOfFields 2 (portBits p) data) =
    if p = 0 ∧ data = 0 then some .activity else none := by
  have whole : data.extractLsb 7 0 = data := BitVec.extractLsb'_eq_self ..
  rw [eventOfWord, kind_eventWordOfFields, ep_eventWordOfFields, portOfBits_portBits,
    slice_eventWordOfFields _ _ _ 7 0 (by decide) (by decide), whole]
  simp only [Bool.and_eq_true, beq_iff_eq]
  rfl

/-- No event has kind 3 or port 3 (R50). -/
theorem eventOfWord_eq_none (h : kind = 3 ∨ ep = 3) : eventOfWord (eventWordOfFields kind ep data) = none := by
  rw [eventOfWord, kind_eventWordOfFields, ep_eventWordOfFields]
  obtain rfl | rfl := h
  · rfl
  · generalize kind.toNat = k
    obtain _ | _ | _ | k := k <;> rfl

end Reader

@[simp] theorem Which.ofBit_bit (which : Which) : Which.ofBit which.bit = which := by cases which <;> rfl
@[simp] theorem Which.bit_ofBit (b : Bool) : (Which.ofBit b).bit = b := by cases b <;> rfl

/-- The parts of a nibble request's data field. -/
theorem nibbleData_parts (which : Which) (v : Nibble) : (nibbleData which v).extractLsb 7 5 = 0 ∧
    (nibbleData which v).getLsbD 4 = which.bit ∧ (nibbleData which v).extractLsb 3 0 = v := by
  have h : ∀ (b : Bool) (v : Nibble), ((0 : BitVec 3) ++ BitVec.ofBool b ++ v : Byte).extractLsb 7 5 = 0 ∧
      ((0 : BitVec 3) ++ BitVec.ofBool b ++ v : Byte).getLsbD 4 = b ∧
      ((0 : BitVec 3) ++ BitVec.ofBool b ++ v : Byte).extractLsb 3 0 = v := by decide
  exact h which.bit v

/-- A data field whose three highest bits are zero is that of a nibble request. -/
theorem nibbleData_of_parts (data : Byte) (h : data.extractLsb 7 5 = 0) :
    nibbleData (Which.ofBit (data.getLsbD 4)) (data.extractLsb 3 0) = data := by
  have parts : ∀ data : Byte, data.extractLsb 7 5 = 0 →
      ((0 : BitVec 3) ++ BitVec.ofBool (data.getLsbD 4) ++ data.extractLsb 3 0 : Byte) = data := by decide
  rw [nibbleData, Which.bit_ofBit]
  exact parts data h

theorem eventOfWord_eventWord (e : Event) : eventOfWord (eventWord e) = some e := by
  cases e with
  | sendNibble p which v =>
    obtain ⟨zeros, selector, nibble⟩ := nibbleData_parts which v
    rw [eventWord_sendNibble, eventOfWord_kind_nibble, if_pos zeros, selector, nibble, Which.ofBit_bit]
  | sendByte p v => rw [eventWord_sendByte, eventOfWord_kind_byte]
  | activity => decide

/-- The fields of a word that is read as an event are those of the event's word. -/
theorem eventWord_of_eventOfWord {evt : EventWord} {e : Event} (h : eventOfWord evt = some e) : eventWord e = evt := by
  have kinds : ∀ v : BitVec 2, v = 0 ∨ v = 1 ∨ v = 2 ∨ v = 3 := by decide
  have ports : ∀ v : BitVec 2, v = 3 ∨ ∃ p : Port, v = portBits p := by decide
  rw [← eventWordOfFields_fields evt] at h ⊢
  generalize evt.extractLsb 11 10 = kind at h ⊢
  generalize evt.extractLsb 9 8 = ep at h ⊢
  generalize evt.extractLsb 7 0 = data at h ⊢
  obtain rfl | ⟨p, rfl⟩ := ports ep
  · rw [eventOfWord_eq_none _ _ _ (.inr rfl)] at h
    exact absurd h (by simp)
  obtain rfl | rfl | rfl | rfl := kinds kind
  · rw [eventOfWord_kind_nibble, Option.ite_none_right_eq_some] at h
    obtain ⟨zeros, h⟩ := h
    obtain rfl := Option.some.inj h
    rw [eventWord_sendNibble, nibbleData_of_parts data zeros]
  · rw [eventOfWord_kind_byte] at h
    obtain rfl := Option.some.inj h
    exact eventWord_sendByte p data
  · rw [eventOfWord_kind_activity, Option.ite_none_right_eq_some] at h
    obtain ⟨⟨rfl, rfl⟩, h⟩ := h
    obtain rfl := Option.some.inj h
    rfl
  · rw [eventOfWord_eq_none _ _ _ (.inl rfl)] at h
    exact absurd h (by simp)

/-- Settles O11: both directions, each by the kind of the event. -/
theorem eventWordRoundTrip : Obligations.EventWordRoundTrip :=
  ⟨eventOfWord_eventWord, fun _ _ => eventWord_of_eventOfWord⟩

end Sys2Proof.Machine

/-! ## Commands and steps: what each does, said once -/

namespace Sys2Proof.Machine

/-! ### The effect of a command -/

/-- The state a command leaves: the work of `Laws/Ops` for each command. -/
def effect : Instr → State → State
  | .nop, s => s
  | .init w r, s => reloadConfig w r s
  | .setdir d, s => latchDirections d s
  | .scan p raw, s => scanPort p raw s
  | .report p, s => reportPort p s
  | .resync p owed, s => resyncPort p owed s
  | .tick p raw owed, s => resyncPort p owed (reportPort p (scanPort p raw s))
  | .dispatch idx level, s => dispatchLevel idx level s

/-- Every command answers a next state (R94). -/
theorem exec_eq (i : Instr) (s : State) : exec i s = .next (effect i s) := by cases i <;> rfl

theorem exec_eq_next_iff (i : Instr) (s t : State) : exec i s = .next t ↔ effect i s = t := by
  rw [exec_eq, Host.Outcome.next.injEq]

@[simp] theorem execAll_nil (s : State) : execAll [] s = .next s := rfl

@[simp] theorem execAll_cons (i : Instr) (is : List Instr) (s : State) :
    execAll (i :: is) s = execAll is (effect i s) := by
  rw [execAll, exec_eq]

/-- The requests of RESYNC: the packed byte if owed (R82). -/
def resyncEvents (s : State) (p : Port) (owed : Bool) : List Event :=
  if owed then [.sendByte p (s.packByte p)] else []

/-- The requests of a command, in their order. -/
def emits : Instr → State → List Event
  | .nop, _ | .init _ _, _ | .setdir _, _ | .scan _ _, _ => []
  | .report p, s => reportEvents s p
  | .resync p owed, s => resyncEvents s p owed
  | .tick p raw owed, s => reportEvents (scanPort p raw s) p ++ resyncEvents (scanPort p raw s) p owed
  | .dispatch idx _, s => dispatchEvents s idx

section Effect
variable (i : Instr) (s : State)

@[simp] theorem effect_board : (effect i s).board = s.board := by cases i <;> simp [effect]
@[simp] theorem effect_pending : (effect i s).pending = s.pending := by cases i <;> simp [effect]
@[simp] theorem effect_eventsBefore : (effect i s).eventsBefore = s.eventsBefore := by cases i <;> simp [effect]

/-- A report changes no cell, so a TICK's byte is the pack after its scan (R86). -/
theorem resyncEvents_reportPort (p : Port) (owed : Bool) :
    resyncEvents (reportPort p s) p owed = resyncEvents s p owed := by
  rw [resyncEvents, resyncEvents, packByte_congr s (reportPort p s) p fun j => reportPort_cell s p p j]

theorem effect_events : (effect i s).events = s.events ++ emits i s := by
  cases i with
  | tick p raw owed =>
    rw [effect, emits, resyncPort_events, ← resyncEvents, resyncEvents_reportPort, reportPort_events, scanPort_events,
      List.append_assoc]
  | nop => simp [effect, emits]
  | init w r => simp [effect, emits]
  | setdir d => simp [effect, emits]
  | scan p raw => simp [effect, emits]
  | report p => simp [effect, emits]
  | resync p owed => simp [effect, emits, resyncEvents]
  | dispatch idx level => simp [effect, emits]

theorem emitted_effect : emitted s (effect i s) (emits i s) := ⟨effect_events i s, effect_eventsBefore i s⟩

theorem sameHost_effect : sameHost s (effect i s) := ⟨effect_board i s, effect_pending i s⟩

/-- Only INIT writes `WIDTH` and `DELAY` (R19, R21). -/
theorem sameWindow_effect (h : isInit i = false) : sameWindow s (effect i s) := by
  cases i with
  | init w r => exact Bool.noConfusion h
  | _ => exact ⟨by simp [effect], by simp [effect]⟩

/-- A command of a tick leaves the other ports as they were (R87). -/
theorem effect_port_ne {p q : Port} (h : tickPort i = some p) (hq : q ≠ p) : (effect i s).port q = s.port q := by
  cases i <;> cases h <;> simp [effect, hq]

end Effect

/-! ### Parts of a state that are as they were -/

section Frame
variable {s t : State} {p : Port}

theorem sameCells_of_cell (h : ∀ j, t.cell p j = s.cell p j) : sameCells s t p := fun j =>
  ⟨congrArg Cell.hist (h j), congrArg Cell.cnt (h j), congrArg Cell.fs (h j)⟩

theorem samePort_of_port (h : t.port p = s.port p) : samePort s t p :=
  ⟨sameCells_of_cell fun j => by rw [State.cell, h, State.cell], ⟨by rw [State.lastLo, h, State.lastLo],
    by rw [State.lastHi, h, State.lastHi]⟩, by rw [sameDir, State.dir, h, State.dir],
    fun j => by rw [State.out, h, State.out]⟩

end Frame

/-! ### The step -/

section Step
variable {s : State} {rest : List Stimulus}

theorem step_of_idle (h : s.pending = []) : step s = .next s := by
  rw [step, takeStimulus, h]

theorem step_of_reset (h : s.pending = .reset :: rest) :
    step s = .next (applyReset { s with pending := rest }) := by
  rw [step, takeStimulus, h]

theorem step_of_command {cmd : Word} {i : Instr} (h : s.pending = .command cmd :: rest) (legal : decode cmd = .command i) :
    step s = exec i { s with pending := rest } := by
  rw [step, takeStimulus, h]
  simp only [legal]

theorem step_of_reserved {cmd : Word} {why : Reserved} (h : s.pending = .command cmd :: rest)
    (reserved : decode cmd = .reserved why) : step s = .next { s with pending := rest } := by
  rw [step, takeStimulus, h]
  simp only [reserved]

/-- What a step leaves: the state as it was while idle, the reset state, or the effect of a command; a reserved word is
only taken. -/
theorem step_next_cases {t : State} (h : step s = .next t) :
    (s.pending = [] ∧ t = s) ∨
    (∃ rest, s.pending = .reset :: rest ∧ t = applyReset { s with pending := rest }) ∨
    (∃ cmd rest i, s.pending = .command cmd :: rest ∧ decode cmd = .command i ∧
      t = effect i { s with pending := rest }) ∨
    (∃ cmd rest, s.pending = .command cmd :: rest ∧ t = { s with pending := rest }) := by
  obtain ⟨hq, e⟩ | ⟨rest, hq, e⟩ | ⟨cmd, rest, i, hq, hd, e⟩ | ⟨cmd, rest, why, hq, -, e⟩ := step_cases s <;>
    rw [e] at h
  · exact .inl ⟨hq, (Host.Outcome.next.inj h).symm⟩
  · exact .inr (.inl ⟨rest, hq, (Host.Outcome.next.inj h).symm⟩)
  · exact .inr (.inr (.inl ⟨cmd, rest, i, hq, hd, ((exec_eq_next_iff i _ t).mp h).symm⟩))
  · exact .inr (.inr (.inr ⟨cmd, rest, hq, (Host.Outcome.next.inj h).symm⟩))

end Step

/-- Settles O12: the word is taken, then its command runs. -/
theorem stepRunsDecodedCommand : Obligations.StepRunsDecodedCommand := fun _ _ _ _ => step_of_command

/-- Settles O13: taking the word is all the step does. -/
theorem stepIgnoresReservedWord : Obligations.StepIgnoresReservedWord := by
  unfold Obligations.StepIgnoresReservedWord
  intro s cmd rest why hq reserved
  exact ⟨_, step_of_reserved hq reserved, fun p => samePort_of_port rfl, ⟨rfl, rfl⟩, ⟨rfl, rfl⟩, rfl, rfl⟩

/-- Settles O15: there is nothing to take. -/
theorem idleStepHoldsState : Obligations.IdleStepHoldsState := fun _ => step_of_idle

/-- Settles O16: every command answers its effect, which leaves what is presented, and so does every kind of step. -/
theorem everyCommandCompletes : Obligations.EveryCommandCompletes := by
  unfold Obligations.EveryCommandCompletes
  refine ⟨fun i s => ⟨effect i s, exec_eq i s, effect_pending i s⟩, fun s => ?_⟩
  obtain ⟨-, e⟩ | ⟨rest, -, e⟩ | ⟨cmd, rest, i, -, -, e⟩ | ⟨cmd, rest, why, -, -, e⟩ := step_cases s
  · exact ⟨_, e⟩
  · exact ⟨_, e⟩
  · exact ⟨_, e.trans (exec_eq i _)⟩
  · exact ⟨_, e⟩

/-- Settles O17: the placed word is taken first, and without it the state is the one it was placed in. -/
theorem fetchWordRunsNext : Obligations.FetchWordRunsNext := by
  unfold Obligations.FetchWordRunsNext
  intro s nbits w i h
  have legal : decode (tableWord nbits w) = .command i := by
    rw [decodeTableWord] at h
    cases d : decode (tableWord nbits w) with
    | command k => rw [d] at h; exact congrArg Decoded.command (Option.some.inj h)
    | reserved why => rw [d] at h; exact absurd h (by simp [Decoded.command?])
  exact step_of_command (s := s.withFetchWord nbits w) rfl legal

/-! ### Reset -/

/-- The registers of the state after reset, for every board (R28, R106). -/
theorem resetWith_registers (b : Board) (p : Port) (j : Pin) :
    (State.resetWith b).hist p j = 0x00 ∧ (State.resetWith b).cnt p j = 0x00 ∧ (State.resetWith b).fs p j = false ∧
      (State.resetWith b).out p j = false := by
  refine ⟨?_, ?_, ?_, ?_⟩
  · rw [State.hist, State.resetWith_cell]; rfl
  · rw [State.cnt, State.resetWith_cell]; rfl
  · rw [State.fs, State.resetWith_cell]; rfl
  · simp [State.out, PortGroup.reset]

theorem resetWith_port_registers (b : Board) (p : Port) :
    (State.resetWith b).lastLo p = 0x0 ∧ (State.resetWith b).lastHi p = 0x0 ∧ (State.resetWith b).dir p = .input := by
  refine ⟨?_, ?_, ?_⟩
  · rw [State.lastLo, State.resetWith_port]; rfl
  · rw [State.lastHi, State.resetWith_port]; rfl
  · rw [State.dir, State.resetWith_port]; rfl

/-- Settles O18: the reset state of every board has these registers. -/
theorem resetStateRegisters : Obligations.ResetStateRegisters :=
  ⟨resetWith_registers Config.board, resetWith_port_registers Config.board, rfl, rfl, rfl, rfl⟩

/-- Settles O14: the reset event leaves the registers of the reset state of its board. -/
theorem resetEventResets : Obligations.ResetEventResets := by
  unfold Obligations.ResetEventResets
  intro s rest hq
  exact ⟨_, step_of_reset hq, resetWith_registers s.board, resetWith_port_registers s.board, rfl, rfl, rfl, rfl, rfl,
    List.append_nil _⟩

/-! ### NOP, INIT, SETDIR -/

/-- Settles O19: the word has no field set, and the command's effect is the state it got. -/
theorem nopChangesNothing : Obligations.NopChangesNothing := ⟨by decide, exec_eq .nop⟩

/-- Settles O20, along the branches of the clamp. -/
theorem windowClamp : Obligations.WindowClamp := by
  unfold Obligations.WindowClamp
  intro w
  have zero : w = 0 ↔ w.toNat = 0 := by rw [← BitVec.toNat_inj]; rfl
  have small : w ≤ 8 ↔ w.toNat ≤ 8 := by rw [BitVec.le_def]; rfl
  refine ⟨fun h => ?_, fun ⟨h1, h8⟩ => ?_, fun h => ?_⟩
  · rw [clampWidth, if_pos (zero.mpr h)]
  · rw [clampWidth, if_neg (by rw [zero]; omega), if_pos (small.mpr h8), BitVec.truncate_eq_setWidth,
      BitVec.toNat_setWidth]
    omega
  · rw [clampWidth, if_neg (by rw [zero]; omega), if_neg (by rw [small]; omega)]

/-- Settles O21: the cells INIT clears, then what it leaves. -/
theorem initReloadsAndClears : Obligations.InitReloadsAndClears := by
  unfold Obligations.InitReloadsAndClears
  intro s w r
  refine ⟨_, exec_eq (.init w r) s, rfl, rfl, fun p j => ?_, fun p => ?_, ⟨rfl, rfl⟩, ⟨rfl, rfl⟩⟩
  · have cleared : (effect (.init w r) s).cell p j = Cell.cleared := reloadConfig_cell s p j w r
    exact ⟨congrArg Cell.hist cleared, congrArg Cell.cnt cleared, congrArg Cell.fs cleared⟩
  · exact ⟨⟨reloadConfig_lastLo s p w r, reloadConfig_lastHi s p w r⟩, reloadConfig_dir s p w r,
      fun j => reloadConfig_out s p j w r⟩

/-- Settles O22: the bit each direction takes, then what SETDIR leaves. -/
theorem setdirLatchesDirections : Obligations.SetdirLatchesDirections := by
  unfold Obligations.SetdirLatchesDirections
  intro s d
  refine ⟨_, exec_eq (.setdir d) s, fun p => ?_, fun p => ?_, ⟨rfl, rfl⟩, ⟨rfl, rfl⟩, ⟨rfl, rfl⟩⟩
  · rw [effect, latchDirections_dir, dirOperand]
    cases d.getLsbD p.val <;> rfl
  · exact ⟨sameCells_of_cell fun j => latchDirections_cell s p j d,
      ⟨latchDirections_lastLo s p d, latchDirections_lastHi s p d⟩, fun j => latchDirections_out s p j d⟩

/-- Settles O23: INIT and SETDIR write different registers. -/
theorem bootOrderIrrelevant : Obligations.BootOrderIrrelevant := by
  unfold Obligations.BootOrderIrrelevant
  intro s w r d
  simp only [execAll_cons, execAll_nil, effect]
  refine congrArg Host.Outcome.next (State.ext_ports (fun p => ?_) rfl rfl rfl rfl rfl rfl)
  simp

end Sys2Proof.Machine

/-! ## The laws of a filter cell (41_sample_filter.md section 2) -/

namespace Sys2Proof.Machine

section CellLaws
variable {width : Nibble} {delay : Byte} {c : Cell}

/-! ### One step of a released and of an asserted cell -/

/-- A released cell asserts exactly when the window with the new sample is all true (R62, R64). -/
theorem filterStep_fs_of_released (raw : Bool) (released : c.fs = false) (h8 : width.toNat ≤ 8) :
    (filterStep width delay c raw).fs = true ↔
      ∀ k, k < width.toNat → (filterStep width delay c raw).hist.getLsbD k = true := by
  rw [filterStep_fs, released, nextFs_released_iff, window_full_iff, filterStep_hist]
  exact ⟨fun full k hk => full k (by omega) hk, fun full k _ hk => full k hk⟩

/-- An asserted cell stays asserted exactly while its new countdown is not 0 (R62, R65). -/
theorem filterStep_fs_of_asserted (raw : Bool) (asserted : c.fs = true) :
    (filterStep width delay c raw).fs = true ↔ 1 ≤ (filterStep width delay c raw).cnt.toNat := by
  rw [filterStep_fs, asserted, nextFs_asserted_iff, filterStep_cnt, Nat.one_le_iff_ne_zero, ne_eq, ne_eq,
    ← BitVec.toNat_inj]
  rfl

/-- Bit 0 of the window is the newest sample (R14). -/
theorem getLsbD_zero_filterStep_hist (raw : Bool) : (filterStep width delay c raw).hist.getLsbD 0 = raw := by
  rw [filterStep_hist, getLsbD_shiftHist _ _ _ (by decide), if_pos rfl]

theorem getLsbD_succ_filterStep_hist (raw : Bool) (k : Nat) (hk : k + 1 < 8) :
    (filterStep width delay c raw).hist.getLsbD (k + 1) = c.hist.getLsbD k := by
  rw [filterStep_hist, getLsbD_shiftHist _ _ _ hk, if_neg (by omega), Nat.add_sub_cancel]

theorem filterStep_true_cnt : (filterStep width delay c true).cnt = delay := rfl

theorem filterStep_false_cnt : (filterStep width delay c false).cnt.toNat = c.cnt.toNat - 1 :=
  nextCnt_false_toNat delay c.cnt

/-! ### Assertion (R64) -/

/-- The window of a cell that started cleared holds the samples since then, newest first, and false before them. -/
theorem getLsbD_hist_of_cleared (samples : List Bool) (k : Nat) (hk : k < 8) :
    (filterRun width delay Cell.cleared samples).hist.getLsbD k =
      (samples.reverse ++ List.replicate 8 false)[k]'(by simp; omega) := by
  rw [getLsbD_filterRun_hist _ _ _ _ _ hk, List.getElem_append]
  by_cases h : k < samples.length
  · rw [dif_pos h, dif_pos (by simpa using h)]
  · rw [dif_neg h, dif_neg (by simpa using h), List.getElem_replicate]
    exact BitVec.getLsbD_zero

/-- A released cell that started cleared asserts exactly when its `WIDTH` most recent samples are true. -/
theorem fs_of_cleared_iff (samples : List Bool) (raw : Bool) (h8 : width.toNat ≤ 8)
    (released : (filterRun width delay Cell.cleared samples).fs = false) :
    (filterRun width delay Cell.cleared (samples ++ [raw])).fs = true ↔
      ∀ b ∈ ((samples ++ [raw]).reverse ++ List.replicate 8 false).take width.toNat, b = true := by
  rw [filterRun_append_singleton, filterStep_fs_of_released raw released h8, ← filterRun_append_singleton]
  constructor
  · intro full b hb
    obtain ⟨k, hk, rfl⟩ := List.mem_take_iff_getElem.mp hb
    rw [← getLsbD_hist_of_cleared (width := width) (delay := delay) _ _ (by omega)]
    exact full k (by omega)
  · intro recent k hk
    rw [getLsbD_hist_of_cleared _ _ (by omega)]
    exact recent _ (List.mem_take_iff_getElem.mpr ⟨k, by simp; omega, rfl⟩)

/-- Settles O29: the window of a cell that started cleared is the list of its samples. -/
theorem assertionAfterFullWindow : Obligations.AssertionAfterFullWindow :=
  fun _ _ samples raw _ h8 => fs_of_cleared_iff samples raw h8

/-- With false samples before the first one, the `n` most recent samples are true exactly when the last `n` there are. -/
theorem recent_true_iff_suffix (samples : List Bool) {n : Nat} (h8 : n ≤ 8) :
    (∀ b ∈ (samples.reverse ++ List.replicate 8 false).take n, b = true) ↔ List.replicate n true <:+ samples := by
  have len : ((samples.reverse ++ List.replicate 8 false).take n).length = n := by simp; omega
  rw [← List.reverse_prefix, List.reverse_replicate]
  constructor
  · intro recent
    have all := List.eq_replicate_iff.mpr ⟨len, recent⟩
    have short : n ≤ samples.reverse.length := by
      by_contra h
      rw [not_le] at h
      have mem : false ∈ (samples.reverse ++ List.replicate 8 false).take n :=
        List.mem_take_iff_getElem.mpr ⟨samples.reverse.length, by simp at h ⊢; omega, by simp⟩
      exact absurd (recent false mem) (by decide)
    rw [List.take_append_of_le_length short] at all
    exact all ▸ List.take_prefix n _
  · intro pre b hb
    have whole := (List.prefix_iff_eq_take.mp (pre.trans (List.prefix_append _ (List.replicate 8 false))))
    rw [List.length_replicate] at whole
    rw [← whole] at hb
    exact List.eq_of_mem_replicate hb

/-- A cell that started cleared is false until `WIDTH` consecutive samples were true. -/
theorem fs_of_short_runs (samples : List Bool) (h8 : width.toNat ≤ 8)
    (short : ¬ List.replicate width.toNat true <:+: samples) :
    (filterRun width delay Cell.cleared samples).fs = false := by
  induction samples using List.reverseRecOn with
  | nil => rfl
  | append_singleton samples raw ih =>
    have released := ih fun run => short (run.trans (List.prefix_append _ _).isInfix)
    rw [← Bool.not_eq_true, fs_of_cleared_iff samples raw h8 released, recent_true_iff_suffix _ h8]
    exact fun run => short run.isInfix

/-- Settles O32: two consecutive true samples are part of every longer run. -/
theorem shortRunsNeverAssert : Obligations.ShortRunsNeverAssert := by
  unfold Obligations.ShortRunsNeverAssert
  intro width delay samples _ h8
  refine ⟨fs_of_short_runs samples h8, fun h2 noPair => fs_of_short_runs samples h8 fun run => noPair ?_⟩
  have pair : List.replicate 2 true <:+: List.replicate width.toNat true :=
    ⟨[], List.replicate (width.toNat - 2) true, by
      rw [List.nil_append, List.replicate_append_replicate, Nat.add_sub_cancel' h2]⟩
  exact pair.trans run

/-! ### Release and hold (R65, R66) -/

/-- Under false samples an asserted cell counts down, and it falls when the countdown reaches 0. -/
theorem run_false (asserted : c.fs = true) (counting : 1 ≤ c.cnt.toNat) {k : Nat} (hk : k ≤ c.cnt.toNat) :
    (filterRun width delay c (List.replicate k false)).cnt.toNat = c.cnt.toNat - k ∧
      (filterRun width delay c (List.replicate k false)).fs = decide (k < c.cnt.toNat) := by
  induction k with
  | zero => exact ⟨rfl, by rw [List.replicate_zero, filterRun_nil, asserted, decide_eq_true (by omega)]⟩
  | succ k ih =>
    obtain ⟨cnt, fs⟩ := ih (by omega)
    rw [decide_eq_true (by omega)] at fs
    rw [List.replicate_succ', filterRun_append_singleton, filterStep_false_cnt, cnt]
    refine ⟨by omega, ?_⟩
    rw [Bool.eq_iff_iff, filterStep_fs_of_asserted false fs, filterStep_false_cnt, cnt, decide_eq_true_iff]
    omega

/-- Settles O30: a true sample reloads the countdown to `DELAY`. -/
theorem releaseAfterDelay : Obligations.ReleaseAfterDelay := by
  unfold Obligations.ReleaseAfterDelay
  intro width delay c k h1 asserted hk
  exact run_false (c := filterStep width delay c true) asserted h1 hk

/-- An asserted cell holds while no run of false samples is long enough: not the next ones for the countdown there is, and
no later ones for `DELAY`. -/
theorem hold (samples : List Bool) (asserted : c.fs = true) (h1 : 1 ≤ delay.toNat)
    (next : ¬ List.replicate c.cnt.toNat false <+: samples)
    (later : ¬ List.replicate delay.toNat false <:+: samples) : (filterRun width delay c samples).fs = true := by
  induction samples generalizing c with
  | nil => exact asserted
  | cons raw samples ih =>
    have later' : ¬ List.replicate delay.toNat false <:+: samples := fun run => later (List.infix_cons run)
    rw [filterRun_cons]
    cases raw with
    | true =>
      refine ih ((filterStep_fs_of_asserted true asserted).mpr h1) ?_ later'
      exact fun run => later' run.isInfix
    | false =>
      have counting : c.cnt.toNat - 1 + 1 = c.cnt.toNat ∧ ¬ List.replicate (c.cnt.toNat - 1) false <+: samples := by
        cases hc : c.cnt.toNat with
        | zero => exact absurd (by rw [hc]; exact List.nil_prefix) next
        | succ n =>
          rw [hc, List.replicate_succ, List.cons_prefix_cons] at next
          exact ⟨rfl, fun run => next ⟨rfl, run⟩⟩
      obtain ⟨positive, next'⟩ := counting
      rw [← filterStep_false_cnt (width := width) (delay := delay)] at next'
      refine ih ((filterStep_fs_of_asserted false asserted).mpr ?_) next' later'
      rw [Nat.one_le_iff_ne_zero]
      intro zero
      rw [zero] at next'
      exact next' List.nil_prefix

/-- Settles O31: after the true sample the countdown is `DELAY`, so both bounds on the false runs are the same. -/
theorem holdWhileRefreshed : Obligations.HoldWhileRefreshed := by
  unfold Obligations.HoldWhileRefreshed
  intro width delay c samples h1 asserted noRun
  exact hold samples asserted h1 (fun run => noRun run.isInfix) noRun

/-! ### `DELAY = 0` (R68) -/

/-- Under a constantly true input with `DELAY = 0`, a cell that reads true falls and one that reads false asserts as soon
as it has seen `WIDTH` samples. -/
theorem zeroDelay_step (width : Nibble) (n : Nat) (h8 : width.toNat ≤ 8) :
    (filterRun width 0 Cell.cleared (List.replicate (n + 1) true)).fs =
      (!(filterRun width 0 Cell.cleared (List.replicate n true)).fs && decide (width.toNat ≤ n + 1)) := by
  rw [List.replicate_succ']
  cases fs : (filterRun width 0 Cell.cleared (List.replicate n true)).fs with
  | true =>
    rw [filterRun_append_singleton, Bool.not_true, Bool.false_and, ← Bool.not_eq_true,
      filterStep_fs_of_asserted true fs, filterStep_true_cnt]
    decide
  | false =>
    rw [Bool.eq_iff_iff, fs_of_cleared_iff _ _ h8 fs, recent_true_iff_suffix _ h8, ← List.replicate_succ', Bool.not_false,
      Bool.true_and, decide_eq_true_iff]
    exact ⟨fun run => by simpa using run.length_le,
      fun le => ⟨List.replicate (n + 1 - width.toNat) true, by
        rw [List.replicate_append_replicate, Nat.sub_add_cancel le]⟩⟩

/-- Settles O33. -/
theorem zeroDelayFlickers : Obligations.ZeroDelayFlickers := by
  unfold Obligations.ZeroDelayFlickers
  intro width n h1 h8
  induction n with
  | zero =>
    rw [decide_eq_false (by omega)]
    rfl
  | succ n ih =>
    rw [zeroDelay_step width n h8, ih, Bool.eq_iff_iff, Bool.and_eq_true, Bool.not_eq_true', decide_eq_false_iff_not,
      decide_eq_true_iff, decide_eq_true_iff]
    omega

/-! ### Old samples (R69) -/

/-- Two cells that differ only in window bits at and above `WIDTH`. -/
def AgreeBelow (width : Nibble) (c c' : Cell) : Prop :=
  (∀ k, k < width.toNat → c'.hist.getLsbD k = c.hist.getLsbD k) ∧ c'.cnt = c.cnt ∧ c'.fs = c.fs

theorem agreeBelow_filterStep {c' : Cell} (h8 : width.toNat ≤ 8) (raw : Bool) (h : AgreeBelow width c c') :
    AgreeBelow width (filterStep width delay c raw) (filterStep width delay c' raw) := by
  obtain ⟨hist, cnt, fs⟩ := h
  have window : ∀ k, k < width.toNat → (shiftHist c'.hist raw).getLsbD k = (shiftHist c.hist raw).getLsbD k := by
    intro k hk
    rw [getLsbD_shiftHist _ _ _ (by omega), getLsbD_shiftHist _ _ _ (by omega), hist (k - 1) (by omega)]
  refine ⟨window, by rw [filterStep_cnt, filterStep_cnt, cnt], ?_⟩
  rw [filterStep_fs, filterStep_fs, nextFs_eq, nextFs_eq, cnt, fs]
  have test : shiftHist c'.hist raw &&& maskOf width = maskOf width ↔
      shiftHist c.hist raw &&& maskOf width = maskOf width := by
    rw [window_full_iff, window_full_iff]
    exact forall₃_congr fun k _ hk => by rw [window k hk]
  simp only [test]

theorem agreeBelow_filterRun {c' : Cell} (h8 : width.toNat ≤ 8) (samples : List Bool) (h : AgreeBelow width c c') :
    AgreeBelow width (filterRun width delay c samples) (filterRun width delay c' samples) := by
  induction samples generalizing c c' with
  | nil => exact h
  | cons raw samples ih => exact ih (agreeBelow_filterStep h8 raw h)

/-- Settles O34: agreement below `WIDTH` is kept by every sample. -/
theorem oldSamplesNeverMatter : Obligations.OldSamplesNeverMatter := by
  unfold Obligations.OldSamplesNeverMatter
  intro width delay c c' samples h8 hist cnt fs
  obtain ⟨-, sameCnt, sameFs⟩ := agreeBelow_filterRun (delay := delay) h8 samples ⟨hist, cnt, fs⟩
  exact ⟨sameFs, sameCnt⟩

/-! ### Minimum widths (R70) -/

/-- A released cell stays released while a false sample is still in its window. -/
theorem released_while_false_in_window (samples : List Bool) (k : Nat) (released : c.fs = false)
    (falseBit : c.hist.getLsbD k = false) (inWindow : k + samples.length < width.toNat) (h8 : width.toNat ≤ 8) :
    (filterRun width delay c samples).fs = false := by
  induction samples generalizing c k with
  | nil => exact released
  | cons raw samples ih =>
    rw [List.length_cons] at inWindow
    have falseBit' : (filterStep width delay c raw).hist.getLsbD (k + 1) = false := by
      rw [getLsbD_succ_filterStep_hist raw k (by omega), falseBit]
    refine ih (k + 1) ?_ falseBit' (by omega)
    rw [← Bool.not_eq_true, filterStep_fs_of_released raw released h8]
    intro full
    exact absurd (falseBit'.symm.trans (full (k + 1) (by omega))) (by decide)

/-- Settles O35: the sample that asserts a cell is true and reloads its countdown; the one that releases it is false and
stays in the window. -/
theorem noFlickerOnceChanged : Obligations.NoFlickerOnceChanged := by
  unfold Obligations.NoFlickerOnceChanged
  intro width delay c raw samples h1 h8 hd
  refine ⟨fun released asserts few => ?_, fun asserted releases few => ?_⟩
  · have newest := (filterStep_fs_of_released raw released h8).mp asserts 0 (by omega)
    rw [getLsbD_zero_filterStep_hist] at newest
    subst newest
    have long : ¬ List.replicate delay.toNat false <:+: samples := fun run => by
      have := run.length_le
      rw [List.length_replicate] at this
      omega
    exact hold samples asserts hd (fun run => long run.isInfix) long
  · have newest : raw = false := by
      cases raw with
      | false => rfl
      | true => exact absurd ((filterStep_fs_of_asserted true asserted).mpr hd) (by rw [releases]; decide)
    refine released_while_false_in_window samples 0 releases ?_ (by omega) h8
    rw [getLsbD_zero_filterStep_hist, newest]

end CellLaws

end Sys2Proof.Machine

/-! ## SCAN (42_port_scanner.md) -/

namespace Sys2Proof.Machine

/-- A word of SCAN's opcode whose port field is 3 is reserved (R47). -/
theorem reserved_scan_of_port_three (cmd : Word) (op : opField cmd = 0x3) (three : pField cmd = 3) :
    ∃ why, decode cmd = .reserved why := by
  rw [decode_op_scan cmd op, decodeAtPort_isReserved]
  exact .inl three

/-- Settles O26: the word by its formula, then the cells of an Input port, then the frame. -/
theorem scanStepsItsPort : Obligations.ScanStepsItsPort := by
  unfold Obligations.ScanStepsItsPort
  intro s p raw
  obtain ⟨-, -, -, scanWord, -⟩ := encodingFormulas
  refine ⟨(scanWord p raw).trans (by rw [Nat.shiftLeft_eq]), _, exec_scan p raw s,
    fun input j => scanPort_cell s p j raw input, scanPort_of_output s p raw,
    fun q other => sameCells_of_cell fun j => ?_, fun q => ⟨⟨scanPort_lastLo s p q raw, scanPort_lastHi s p q raw⟩,
    scanPort_dir s p q raw, fun j => scanPort_out s p q j raw⟩, sameWindow_effect (.scan p raw) s rfl,
    ⟨scanPort_events s p raw, scanPort_eventsBefore s p raw⟩, sameHost_effect (.scan p raw) s,
    reserved_scan_of_port_three⟩
  rw [State.cell, scanPort_port_ne s p q raw other, State.cell]

/-- Settles O28: the direction, `WIDTH` and `DELAY` stay, so every scan of the list steps every cell. -/
theorem scansRunEveryCell : Obligations.ScansRunEveryCell := by
  unfold Obligations.ScansRunEveryCell
  intro s p raws
  induction raws generalizing s with
  | nil => exact fun _ => ⟨s, rfl, fun _ => rfl, rfl, rfl⟩
  | cons raw raws ih =>
    intro input
    obtain ⟨t, run, cells, events, before⟩ := ih (scanPort p raw s) ((scanPort_dir s p p raw).trans input)
    refine ⟨t, by rw [List.map_cons, execAll_cons]; exact run, fun j => ?_, ?_⟩
    · rw [cells j, scanPort_width, scanPort_delay, scanPort_cell s p j raw input]
      rfl
    · exact ⟨events.trans (scanPort_events s p raw), before.trans (scanPort_eventsBefore s p raw)⟩

/-! ## The packed values and the wires (10_state.md R29, 43_change_nibble_encoder.md R75 to R77) -/

/-- Settles O36: the packs are these concatenations by definition. -/
theorem packedNibbles : Obligations.PackedNibbles := fun _ _ => ⟨rfl, rfl⟩

theorem getLsbD_wires (f : Pin → Bool) (j : Pin) : (wires f).getLsbD j.val = f j := by
  change BitVec.getLsbD (w := 1 + 1 + 1 + 1 + 1 + 1 + 1 + 1)
    (BitVec.ofBool (f 7) ++ BitVec.ofBool (f 6) ++ BitVec.ofBool (f 5) ++ BitVec.ofBool (f 4) ++
      BitVec.ofBool (f 3) ++ BitVec.ofBool (f 2) ++ BitVec.ofBool (f 1) ++ BitVec.ofBool (f 0)) j.val = f j
  simp only [BitVec.getLsbD_append, BitVec.getLsbD_ofBool]
  fin_cases j <;> simp

/-- Settles O38: both vectors are wires. -/
theorem wiresShowRegisters : Obligations.WiresShowRegisters := fun _ _ j => ⟨getLsbD_wires _ j, getLsbD_wires _ j⟩

section Packs
variable {s t : State} {p : Port}

/-- The packed byte holds pin `j` in bit `7 - j` (R77). -/
theorem getLsbD_packByte (s : State) (p : Port) (j : Pin) : (s.packByte p).getLsbD (7 - j.val) = s.fs p j := by
  obtain ⟨lo3, lo2, lo1, lo0⟩ := getLsbD_nibbleOf (s.fs p 4) (s.fs p 5) (s.fs p 6) (s.fs p 7)
  obtain ⟨hi3, hi2, hi1, hi0⟩ := getLsbD_nibbleOf (s.fs p 0) (s.fs p 1) (s.fs p 2) (s.fs p 3)
  have bytes : s.packByte p = nibbleOf (s.fs p 0) (s.fs p 1) (s.fs p 2) (s.fs p 3) ++
      nibbleOf (s.fs p 4) (s.fs p 5) (s.fs p 6) (s.fs p 7) := rfl
  rw [bytes, BitVec.getLsbD_append]
  fin_cases j
  · exact hi3
  · exact hi2
  · exact hi1
  · exact hi0
  · exact lo3
  · exact lo2
  · exact lo1
  · exact lo0

/-- Settles O37: the number of a concatenation, and the bits of the byte one by one. -/
theorem packByteReversesWires : Obligations.PackByteReversesWires := by
  unfold Obligations.PackByteReversesWires
  intro s p
  refine ⟨rfl, ?_, getLsbD_packByte s p, ?_⟩
  · rw [show s.packByte p = s.packHi p ++ s.packLo p from rfl, BitVec.toNat_append,
      ← Nat.shiftLeft_add_eq_or_of_lt (s.packLo p).isLt, Nat.shiftLeft_eq]
  · apply BitVec.eq_of_getLsbD_eq
    intro k hk
    have wire := getLsbD_wires (s.fs p) ⟨7 - k, by omega⟩
    have bit := getLsbD_packByte s p ⟨7 - k, by omega⟩
    rw [show 7 - (7 - k) = k by omega] at bit
    rw [bit, BitVec.getLsbD_reverse, BitVec.getMsbD_eq_getLsbD, State.fsWires, decide_eq_true hk, Bool.true_and]
    exact wire.symm

/-- `PACKLO` shows exactly the filtered states of pins 4 to 7 (R75, R78 b). -/
theorem packLo_eq_iff : t.packLo p = s.packLo p ↔ ∀ j : Pin, 4 ≤ j.val → t.fs p j = s.fs p j := by
  have pins : t.packLo p = s.packLo p ↔
      t.fs p 4 = s.fs p 4 ∧ t.fs p 5 = s.fs p 5 ∧ t.fs p 6 = s.fs p 6 ∧ t.fs p 7 = s.fs p 7 := nibbleOf_inj ..
  rw [pins]
  simp [Fin.forall_fin_succ]

/-- `PACKHI` shows exactly the filtered states of pins 0 to 3 (R76, R78 b). -/
theorem packHi_eq_iff : t.packHi p = s.packHi p ↔ ∀ j : Pin, j.val < 4 → t.fs p j = s.fs p j := by
  have pins : t.packHi p = s.packHi p ↔
      t.fs p 0 = s.fs p 0 ∧ t.fs p 1 = s.fs p 1 ∧ t.fs p 2 = s.fs p 2 ∧ t.fs p 3 = s.fs p 3 := nibbleOf_inj ..
  rw [pins]
  simp [Fin.forall_fin_succ]

/-- The packs of a port whose cells are all cleared are 0 (R81). -/
theorem packs_of_cleared (h : ∀ j, s.cell p j = Cell.cleared) : s.packLo p = 0x0 ∧ s.packHi p = 0x0 := by
  have reset := State.resetWith_cell s.board p
  have same : ∀ j, s.cell p j = (State.resetWith s.board).cell p j := fun j => (h j).trans (reset j).symm
  have zeros : (State.resetWith s.board).packLo p = 0x0 ∧ (State.resetWith s.board).packHi p = 0x0 := by
    simp only [State.packLo, State.packHi, State.resetWith_port]
    decide
  exact ⟨(packLo_congr _ s p same).trans zeros.1, (packHi_congr _ s p same).trans zeros.2⟩

end Packs

/-! ## REPORT (43_change_nibble_encoder.md) -/

/-- A report's requests, with the comparisons written out (R78). -/
theorem reportEvents_eq (s : State) (p : Port) : reportEvents s p =
    (if s.packLo p ≠ s.lastLo p then [.sendNibble p .low (s.packLo p)] else []) ++
      (if s.packHi p ≠ s.lastHi p then [.sendNibble p .high (s.packHi p)] else []) := by
  have low : dirtyLow (s.port p) = true ↔ s.packLo p ≠ s.lastLo p := bne_iff_ne
  have high : dirtyHigh (s.port p) = true ↔ s.packHi p ≠ s.lastHi p := bne_iff_ne
  simp only [reportEvents, low, high]

/-- After a report the last reported nibbles are the pack (R80). -/
theorem reportedNow_reportPort (s : State) (p : Port) : reportedNow (reportPort p s) p := by
  have cells := fun j => reportPort_cell s p p j
  rw [reportedNow, packLo_congr s _ p cells, packHi_congr s _ p cells, reportPort_lastLo, reportPort_lastHi, if_pos rfl,
    if_pos rfl]
  exact ⟨rfl, rfl⟩

/-- A report with nothing to report changes nothing (R79). -/
theorem reportPort_of_reportedNow (s : State) (p : Port) (h : reportedNow s p) : reportPort p s = s := by
  obtain ⟨lo, hi⟩ := h
  refine State.ext_ports (fun q => ?_) ?_ ?_ ?_ ?_ ?_ ?_
  · by_cases hq : q = p
    · subst hq
      rw [reportPort_port, ← lo, ← hi]
      rfl
    · exact reportPort_port_ne s p q hq
  · exact reportPort_width s p
  · exact reportPort_delay s p
  · exact reportPort_board s p
  · exact reportPort_pending s p
  · rw [reportPort_events, reportEvents_eq, if_neg (not_not.mpr lo.symm), if_neg (not_not.mpr hi.symm)]
    simp
  · exact reportPort_eventsBefore s p

/-- Settles O39: the port's last reported nibbles, the requests, then the frame. -/
theorem reportSendsDirtyNibbles : Obligations.ReportSendsDirtyNibbles := by
  unfold Obligations.ReportSendsDirtyNibbles
  intro s p
  have events := emitted_effect (.report p) s
  rw [emits, reportEvents_eq] at events
  refine ⟨_, exec_eq (.report p) s, ?_, ?_, events, fun q other => ?_, fun q => ⟨?_, ?_, fun j => ?_⟩,
    sameWindow_effect (.report p) s rfl, sameHost_effect (.report p) s⟩
  · exact (reportPort_lastLo s p p).trans (if_pos rfl)
  · exact (reportPort_lastHi s p p).trans (if_pos rfl)
  · exact ⟨(reportPort_lastLo s p q).trans (if_neg other), (reportPort_lastHi s p q).trans (if_neg other)⟩
  · exact sameCells_of_cell fun j => reportPort_cell s p q j
  · exact reportPort_dir s p q
  · exact reportPort_out s p q j

/-- Settles O40: the nibble that holds the changed pin differs from what was last reported, the other one does not. -/
theorem reportOnlyWhatChanged : Obligations.ReportOnlyWhatChanged := by
  unfold Obligations.ReportOnlyWhatChanged
  refine ⟨fun s p h => by rw [exec_eq, effect, reportPort_of_reportedNow s p h], ?_⟩
  rintro s t p j ⟨lo, hi⟩ ⟨sameLo, sameHi⟩ changed others
  refine ⟨_, exec_eq (.report p) t, ?_⟩
  have events := emitted_effect (.report p) t
  rw [emits, reportEvents_eq, sameLo, sameHi, lo, hi] at events
  by_cases hj : j.val < 4
  · have low : t.packLo p = s.packLo p := packLo_eq_iff.mpr fun k hk => others k fun e => by subst e; omega
    have high : t.packHi p ≠ s.packHi p := fun e => changed (packHi_eq_iff.mp e j hj)
    rw [if_neg (not_not.mpr low), if_pos high] at events
    rwa [if_pos hj]
  · have low : t.packLo p ≠ s.packLo p := fun e => changed (packLo_eq_iff.mp e j (by omega))
    have high : t.packHi p = s.packHi p := packHi_eq_iff.mpr fun k hk => others k fun e => by subst e; omega
    rw [if_pos low, if_neg (not_not.mpr high)] at events
    rwa [if_neg hj]

/-- Settles O41: an INIT clears the cells and keeps the last reported nibbles, so a report sees packs of 0. -/
theorem reportAfterInitSendsZeros : Obligations.ReportAfterInitSendsZeros := by
  unfold Obligations.ReportAfterInitSendsZeros
  intro s w r p
  obtain ⟨low, high⟩ := packs_of_cleared (fun j => reloadConfig_cell s p j w r)
  have events := emitted_effect (.report p) (reloadConfig w r s)
  rw [emits, reportEvents_eq, low, high, reloadConfig_lastLo, reloadConfig_lastHi] at events
  refine ⟨effect (.report p) (reloadConfig w r s), by rw [execAll_cons, execAll_cons, execAll_nil]; rfl, ?_, ?_, ?_⟩
  · exact (reportPort_lastLo _ p p).trans ((if_pos rfl).trans low)
  · exact (reportPort_lastHi _ p p).trans ((if_pos rfl).trans high)
  · simp only [ne_comm (a := (0x0 : Nibble))] at events
    exact events

/-! ## RESYNC and TICK (44_resync_and_tick.md) -/

/-- Settles O42: the request, then the frame. -/
theorem resyncSendsByteIfOwed : Obligations.ResyncSendsByteIfOwed := by
  unfold Obligations.ResyncSendsByteIfOwed
  intro s p owed
  exact ⟨_, exec_eq (.resync p owed) s, emitted_effect (.resync p owed) s,
    fun q => samePort_of_port (resyncPort_port s p q owed), sameWindow_effect (.resync p owed) s rfl,
    sameHost_effect (.resync p owed) s⟩

/-- Settles O43: the three commands are TICK's work, one after the other. -/
theorem tickIsScanReportResync : Obligations.TickIsScanReportResync := by
  unfold Obligations.TickIsScanReportResync
  intro s p raw owed
  refine ⟨?_, _, exec_eq (.tick p raw owed) s⟩
  rw [execAll_cons, execAll_cons, execAll_cons, execAll_nil]
  rfl

/-- After a TICK the last reported nibbles of its port are the pack (R80, R86). -/
theorem reportedNow_tick (s : State) (p : Port) (raw : Byte) (owed : Bool) :
    reportedNow (effect (.tick p raw owed) s) p := by
  have port : (effect (.tick p raw owed) s).port p = (reportPort p (scanPort p raw s)).port p :=
    resyncPort_port _ p p owed
  have reported := reportedNow_reportPort (scanPort p raw s) p
  rw [reportedNow, State.lastLo, State.lastHi, State.packLo, State.packHi] at reported ⊢
  rwa [port]

/-- The packs after a TICK are those after its scan. -/
theorem packs_tick (s : State) (p : Port) (raw : Byte) (owed : Bool) :
    (effect (.tick p raw owed) s).packLo p = (scanPort p raw s).packLo p ∧
      (effect (.tick p raw owed) s).packHi p = (scanPort p raw s).packHi p := by
  have cells : ∀ j, (effect (.tick p raw owed) s).cell p j = (scanPort p raw s).cell p j := fun j =>
    (resyncPort_cell _ p p j owed).trans (reportPort_cell _ p p j)
  exact ⟨packLo_congr _ _ p cells, packHi_congr _ _ p cells⟩

/-- Settles O44: the requests of the report after the scan, then the byte, which is the two reported nibbles. -/
theorem tickEventsInOrder : Obligations.TickEventsInOrder := by
  unfold Obligations.TickEventsInOrder
  intro s p raw owed
  obtain ⟨low, high⟩ := packs_tick s p raw owed
  have reported := reportedNow_tick s p raw owed
  have events := emitted_effect (.tick p raw owed) s
  have byte : (scanPort p raw s).packByte p =
      (effect (.tick p raw owed) s).lastHi p ++ (effect (.tick p raw owed) s).lastLo p := by
    rw [reported.1, reported.2, low, high]
    rfl
  rw [emits, reportEvents_eq, resyncEvents, byte, ← low, ← high] at events
  refine ⟨_, _, _, exec_eq (.tick p raw owed) s, ?_, ?_, events, reported⟩
  · exact (ite_eq_or_eq ..).symm
  · exact (ite_eq_or_eq ..).symm

/-- A report and a SETDIR do not meet: the one reads and writes the last reported nibbles, the other the directions. -/
theorem reportPort_latchDirections (s : State) (p : Port) (d : BitVec 3) :
    reportPort p (latchDirections d s) = latchDirections d (reportPort p s) := by
  have cells := fun j => latchDirections_cell s p j d
  refine State.ext_ports (fun q => ?_) (by simp) (by simp) (by simp) (by simp) ?_ (by simp)
  · by_cases hq : q = p
    · subst hq
      rw [reportPort_port, latchDirections_port, latchDirections_port, reportPort_port, packLo_congr s _ q cells,
        packHi_congr s _ q cells]
    · rw [reportPort_port_ne _ _ _ hq, latchDirections_port, latchDirections_port, reportPort_port_ne _ _ _ hq]
  · rw [reportPort_events, latchDirections_events, latchDirections_events, reportPort_events,
      reportEvents_congr s _ p cells (latchDirections_lastLo s p d) (latchDirections_lastHi s p d)]

theorem resyncPort_latchDirections (s : State) (p : Port) (owed : Bool) (d : BitVec 3) :
    resyncPort p owed (latchDirections d s) = latchDirections d (resyncPort p owed s) := by
  refine State.ext_ports (fun q => by simp) (by simp) (by simp) (by simp) (by simp) ?_ (by simp)
  rw [resyncPort_events, latchDirections_events, latchDirections_events, resyncPort_events,
    packByte_congr s _ p fun j => latchDirections_cell s p j d]

/-- Settles O45. -/
theorem directionDoesNotGateReporting : Obligations.DirectionDoesNotGateReporting := by
  unfold Obligations.DirectionDoesNotGateReporting
  intro s p owed d
  simp only [execAll_cons, execAll_nil, effect, reportPort_latchDirections, resyncPort_latchDirections, and_self]

/-- Settles O46: what each of the four writes does not depend on what it writes. -/
theorem repeatedCommandsIdempotent : Obligations.RepeatedCommandsIdempotent := by
  unfold Obligations.RepeatedCommandsIdempotent
  intro s i kind
  rw [execAll_cons, execAll_cons, execAll_cons, execAll_nil, execAll_nil]
  refine congrArg Host.Outcome.next ?_
  obtain rfl | ⟨w, r, rfl⟩ | ⟨d, rfl⟩ | ⟨p, rfl⟩ := kind
  · rfl
  · exact State.ext_ports (fun q => by simp [effect]) rfl rfl rfl rfl rfl rfl
  · exact State.ext_ports (fun q => by simp [effect]) rfl rfl rfl rfl rfl rfl
  · exact reportPort_of_reportedNow _ p (reportedNow_reportPort s p)

/-! ## DISPATCH (45_accessory_dispatcher.md) -/

section DispatchCases
variable {s : State} {idx : Byte} {p : Port} {j : Pin} (level : Bool)

/-- A dispatch to a pin of an Input port is suppressed (R90). -/
theorem dispatchLevel_of_input (bound : boundPin s.board idx = some (p, j)) (input : s.dir p = .input) :
    dispatchLevel idx level s = s := by
  simp only [dispatchLevel, bound, input]

end DispatchCases

/-- Settles O49: the direction check stops the dispatch. -/
theorem dispatchToInputPortSuppressed : Obligations.DispatchToInputPortSuppressed := by
  unfold Obligations.DispatchToInputPortSuppressed
  intro s idx level p j bound input
  rw [exec_dispatch, dispatchLevel_of_input level bound input]

/-- Settles O47, along the cases of a dispatch. -/
theorem dispatchWritesBoundLatch : Obligations.DispatchWritesBoundLatch := by
  unfold Obligations.DispatchWritesBoundLatch
  intro s idx level
  obtain ⟨-, -, -, -, -, -, -, dispatchWord⟩ := encodingFormulas
  refine ⟨(dispatchWord idx level).trans (by rw [Nat.shiftLeft_eq]), _, exec_dispatch idx level s, ?_⟩
  have events := emitted_effect (.dispatch idx level) s
  have host := sameHost_effect (.dispatch idx level) s
  have window := sameWindow_effect (.dispatch idx level) s rfl
  cases bound : s.board.bind[idx.toNat]? with
  | none => exact dispatchLevel_of_unbound s idx level bound
  | some pin =>
    obtain ⟨p, j⟩ := pin
    dsimp only
    cases dir : s.dir p with
    | input =>
      rw [if_neg (by decide)]
      exact dispatchLevel_of_input level bound dir
    | output =>
      rw [if_pos rfl]
      have outs := fun q k => dispatchLevel_out s q k idx level
      simp only [boundPin, bound, dir, true_and] at outs
      simp only [emits, dispatchEvents, boundPin, bound, dir, if_true] at events
      refine ⟨(outs p j).trans (if_pos ⟨rfl, rfl⟩), fun q k other => (outs q k).trans (if_neg ?_), fun q => ?_, window,
        events, host⟩
      · exact fun ⟨hq, hk⟩ => other (Prod.ext hq hk)
      · exact ⟨sameCells_of_cell fun k => dispatchLevel_cell s q k idx level,
          ⟨dispatchLevel_lastLo s q idx level, dispatchLevel_lastHi s q idx level⟩, dispatchLevel_dir s q idx level⟩

/-- What a dispatch asks for and emits depends on the directions and the binding alone. -/
theorem dispatchEvents_congr (s t : State) (idx : Byte) (board : t.board = s.board) (dirs : ∀ p, t.dir p = s.dir p) :
    dispatchEvents t idx = dispatchEvents s idx := by
  simp only [dispatchEvents, board, dirs]

/-- A second equal dispatch writes the level that the latch already holds (R37). -/
theorem dispatchLevel_out_twice (s : State) (idx : Byte) (level : Bool) (q : Port) (k : Pin) :
    (dispatchLevel idx level (dispatchLevel idx level s)).out q k = (dispatchLevel idx level s).out q k := by
  rw [dispatchLevel_out _ q k, dispatchLevel_board]
  simp only [dispatchLevel_dir]
  cases bound : boundPin s.board idx with
  | none => rfl
  | some pin =>
    obtain ⟨p, j⟩ := pin
    rw [dispatchLevel_out, bound]
    simp only
    split <;> rfl

/-- Settles O50: the first dispatch changes neither the binding nor a direction, so the second does the same again. -/
theorem repeatedDispatch : Obligations.RepeatedDispatch := by
  unfold Obligations.RepeatedDispatch
  intro s idx level
  have again := emitted_effect (.dispatch idx level) (dispatchLevel idx level s)
  rw [emits, dispatchEvents_congr s _ idx (dispatchLevel_board s idx level)
    fun p => dispatchLevel_dir s p idx level] at again
  refine ⟨_, _, dispatchEvents s idx, exec_dispatch idx level s, exec_dispatch idx level _, fun p => ?_,
    sameWindow_effect (.dispatch idx level) _ rfl, sameHost_effect (.dispatch idx level) _,
    emitted_effect (.dispatch idx level) s, again, ?_⟩
  · exact ⟨sameCells_of_cell fun k => dispatchLevel_cell _ p k idx level,
      ⟨dispatchLevel_lastLo _ p idx level, dispatchLevel_lastHi _ p idx level⟩, dispatchLevel_dir _ p idx level,
      dispatchLevel_out_twice s idx level p⟩
  · rfl

end Sys2Proof.Machine

/-! ## Whole-machine rules: which step writes which register -/

namespace Sys2Proof.Machine

section Writers
variable {i : Instr} {s : State} {p : Port} {j : Pin}

/-- Only a permitted DISPATCH writes an output latch (R22, R90). -/
theorem writer_of_out (h : (effect i s).out p j ≠ s.out p j) : ∃ idx level, i = .dispatch idx level ∧
    boundPin s.board idx = some (p, j) ∧ s.dir p = .output ∧ (effect i s).out p j = level := by
  cases i with
  | dispatch idx level =>
    have out := dispatchLevel_out s p j idx level
    rw [effect] at h ⊢
    obtain ⟨unbound, e⟩ | ⟨q, k, -, -, e⟩ | ⟨q, k, bound, dir, -⟩ := dispatchLevel_cases s idx level
    · exact absurd (by rw [e]) h
    · exact absurd (by rw [e]) h
    · simp only [bound, dir, true_and] at out
      split at out
      case isTrue own =>
        obtain ⟨rfl, rfl⟩ := own
        exact ⟨idx, level, rfl, bound, dir, out⟩
      case isFalse => exact absurd out h
  | _ => exact absurd (by simp [effect]) h

/-- Only INIT and a scan of their own Input port write the cells (R13, R73). -/
theorem writer_of_cell (h : (effect i s).cell p j ≠ s.cell p j) : (∃ w r, i = .init w r) ∨
    (s.dir p = .input ∧ ((∃ raw, i = .scan p raw) ∨ ∃ raw owed, i = .tick p raw owed)) := by
  cases i with
  | init w r => exact .inl ⟨w, r, rfl⟩
  | scan q raw =>
    rw [effect, scanPort_cell_eq] at h
    split at h
    case isTrue own =>
      obtain ⟨rfl, input⟩ := own
      exact .inr ⟨input, .inl ⟨raw, rfl⟩⟩
    case isFalse => exact absurd rfl h
  | tick q raw owed =>
    rw [effect, resyncPort_cell, reportPort_cell, scanPort_cell_eq] at h
    split at h
    case isTrue own =>
      obtain ⟨rfl, input⟩ := own
      exact .inr ⟨input, .inr ⟨raw, owed, rfl⟩⟩
    case isFalse => exact absurd rfl h
  | _ => exact absurd (by simp [effect]) h

/-- Only REPORT and TICK of their own port write the last reported nibbles (R17). -/
theorem writer_of_last (h : ¬ sameLast s (effect i s) p) : i = .report p ∨ ∃ raw owed, i = .tick p raw owed := by
  cases i with
  | report q =>
    by_cases own : p = q
    · exact .inl (own ▸ rfl)
    · exact absurd ⟨(reportPort_lastLo s q p).trans (if_neg own), (reportPort_lastHi s q p).trans (if_neg own)⟩ h
  | tick q raw owed =>
    by_cases own : p = q
    · exact .inr ⟨raw, owed, own ▸ rfl⟩
    · have port := effect_port_ne (.tick q raw owed) s rfl own
      exact absurd ⟨by rw [State.lastLo, port, State.lastLo], by rw [State.lastHi, port, State.lastHi]⟩ h
  | _ => exact absurd ⟨by simp [effect], by simp [effect]⟩ h

/-- Only SETDIR writes the directions (R18). -/
theorem writer_of_dir (h : (effect i s).dir p ≠ s.dir p) : ∃ d, i = .setdir d := by
  cases i with
  | setdir d => exact ⟨d, rfl⟩
  | _ => exact absurd (by simp [effect]) h

/-- Only INIT writes `WIDTH` and `DELAY` (R19, R21). -/
theorem writer_of_window (h : ¬ sameWindow s (effect i s)) : ∃ w r, i = .init w r := by
  cases i with
  | init w r => exact ⟨w, r, rfl⟩
  | _ => exact absurd (sameWindow_effect _ s rfl) h

end Writers

/-- What changes in a step, unless it is the list of what is presented, was changed by the reset event or by the command
presented first. -/
theorem step_change {α : Type} {s t : State} (f : State → α)
    (notPending : ∀ (s : State) (rest : List Stimulus), f { s with pending := rest } = f s)
    (h : step s = .next t) (changed : f t ≠ f s) :
    (∃ rest, s.pending = .reset :: rest) ∨
    ∃ cmd rest i, s.pending = .command cmd :: rest ∧ decode cmd = .command i ∧
      t = effect i { s with pending := rest } ∧
      f (effect i { s with pending := rest }) ≠ f { s with pending := rest } := by
  obtain ⟨-, rfl⟩ | ⟨rest, hq, -⟩ | ⟨cmd, rest, i, hq, legal, rfl⟩ | ⟨cmd, rest, -, rfl⟩ := step_next_cases h
  · exact absurd rfl changed
  · exact .inl ⟨rest, hq⟩
  · exact .inr ⟨cmd, rest, i, hq, legal, rfl, by rwa [notPending s rest]⟩
  · exact absurd (notPending s rest) changed

/-- Settles O51: the command that changed the latch is a permitted DISPATCH. -/
theorem outputsChangeOnlyByPermittedDispatch : Obligations.OutputsChangeOnlyByPermittedDispatch := by
  unfold Obligations.OutputsChangeOnlyByPermittedDispatch
  intro s t p j h changed
  refine (step_change (fun s => s.out p j) (fun _ _ => rfl) h changed).imp_right ?_
  rintro ⟨cmd, rest, i, hq, legal, rfl, changed⟩
  obtain ⟨idx, level, rfl, bound, output, out⟩ := writer_of_out changed
  exact ⟨cmd, rest, idx, level, hq, legal, bound, output, out⟩

/-- Settles O52: the command that changed the cell is an INIT or a scan of its Input port. -/
theorem cellsChangeOnlyByScanInitReset : Obligations.CellsChangeOnlyByScanInitReset := by
  unfold Obligations.CellsChangeOnlyByScanInitReset
  intro s t p j h changed
  refine (step_change (fun s => s.cell p j) (fun _ _ => rfl) h changed).imp_right ?_
  rintro ⟨cmd, rest, i, hq, legal, -, changed⟩
  have writer := writer_of_cell changed
  exact ⟨cmd, rest, i, hq, legal, writer⟩

/-- Settles O53: the command that changed a nibble is a REPORT or TICK of its port. -/
theorem lastReportedChangesOnlyByReport : Obligations.LastReportedChangesOnlyByReport := by
  unfold Obligations.LastReportedChangesOnlyByReport
  intro s t p h changed
  refine (step_change (fun s => (s.lastLo p, s.lastHi p)) (fun _ _ => rfl) h fun e => changed (Prod.ext_iff.mp e)).imp_right
    ?_
  rintro ⟨cmd, rest, i, hq, legal, -, changed⟩
  exact ⟨cmd, rest, i, hq, legal, writer_of_last fun same => changed (Prod.ext_iff.mpr same)⟩

/-- Settles O54: the parameters kind of step by kind of step, the others by the command that changed them. -/
theorem configurationWriters : Obligations.ConfigurationWriters := by
  unfold Obligations.ConfigurationWriters
  intro s t h
  refine ⟨?board, ?directions, ?window⟩
  case board =>
    obtain ⟨-, rfl⟩ | ⟨rest, -, rfl⟩ | ⟨cmd, rest, i, -, -, rfl⟩ | ⟨cmd, rest, -, rfl⟩ := step_next_cases h
    · rfl
    · rfl
    · exact effect_board i _
    · rfl
  case directions =>
    rintro ⟨p, changed⟩
    refine (step_change (fun s => s.dir p) (fun _ _ => rfl) h changed).imp_right ?_
    rintro ⟨cmd, rest, i, hq, legal, -, changed⟩
    obtain ⟨d, rfl⟩ := writer_of_dir changed
    exact ⟨cmd, rest, d, hq, legal⟩
  case window =>
    intro changed
    refine (step_change (fun s => (s.width, s.delay)) (fun _ _ => rfl) h fun e => changed (Prod.ext_iff.mp e)).imp_right ?_
    rintro ⟨cmd, rest, i, hq, legal, -, changed⟩
    obtain ⟨w, r, rfl⟩ := writer_of_window fun same => changed (Prod.ext_iff.mpr same)
    exact ⟨cmd, rest, w, r, hq, legal⟩

/-! ### The events of a run -/

theorem length_reportEvents (s : State) (p : Port) : (reportEvents s p).length ≤ 2 := by
  rw [reportEvents, List.length_append]
  split <;> split <;> simp

theorem length_resyncEvents (s : State) (p : Port) (owed : Bool) : (resyncEvents s p owed).length ≤ 1 := by
  cases owed <;> simp [resyncEvents]

theorem length_dispatchEvents (s : State) (idx : Byte) : (dispatchEvents s idx).length ≤ 1 := by
  unfold dispatchEvents
  split
  · decide
  · split <;> decide

/-- No command sends more than a TICK does: two nibbles and a byte (R116). -/
theorem length_emits (i : Instr) (s : State) : (emits i s).length ≤ 3 := by
  cases i with
  | report p => exact (length_reportEvents s p).trans (by decide)
  | resync p owed => exact (length_resyncEvents s p owed).trans (by decide)
  | tick p raw owed =>
    rw [emits, List.length_append]
    exact Nat.add_le_add (length_reportEvents _ p) (length_resyncEvents _ p owed)
  | dispatch idx level => exact (length_dispatchEvents s idx).trans (by decide)
  | _ => exact Nat.zero_le 3

/-- Settles O55: a command appends its requests; no other step emits anything. -/
theorem eventSequenceGrows : Obligations.EventSequenceGrows := by
  unfold Obligations.EventSequenceGrows
  intro s t h
  obtain ⟨hq, rfl⟩ | ⟨rest, hq, rfl⟩ | ⟨cmd, rest, i, hq, -, rfl⟩ | ⟨cmd, rest, hq, rfl⟩ := step_next_cases h
  · exact ⟨⟨[], (List.append_nil _).symm, by decide⟩, by rw [hq]; rfl⟩
  · exact ⟨⟨[], rfl, by decide⟩, by rw [hq]; rfl⟩
  · refine ⟨⟨emits i { s with pending := rest }, ?_, length_emits i _⟩, by rw [effect_pending, hq]; rfl⟩
    rw [State.allEvents, effect_events, effect_eventsBefore, ← List.append_assoc]
    rfl
  · exact ⟨⟨[], (List.append_nil _).symm, by decide⟩, by rw [hq]; rfl⟩

end Sys2Proof.Machine

/-! ## The state invariants (10_state.md R27) -/

namespace Sys2Proof.Machine

/-! ### The values last sent -/

section LastSent
variable (p q : Port) (k which : Which) (es : List Event)

@[simp] theorem lastSent_nil : lastSent p k [] = 0x0 := rfl

@[simp] theorem lastSent_sendNibble (v : Nibble) : lastSent p k (es ++ [.sendNibble q which v]) =
    if q = p ∧ which = k then v else lastSent p k es := by
  simp [lastSent]

@[simp] theorem lastSent_sendByte (v : Byte) : lastSent p k (es ++ [.sendByte q v]) = lastSent p k es := by
  simp [lastSent]

@[simp] theorem lastSent_activity : lastSent p k (es ++ [.activity]) = lastSent p k es := by
  simp [lastSent]

/-- A request that is sent only under a condition. -/
theorem lastSent_sendNibble_if (c : Prop) [Decidable c] (v : Nibble) :
    lastSent p k (es ++ if c then [.sendNibble q which v] else []) =
      if c ∧ q = p ∧ which = k then v else lastSent p k es := by
  by_cases h : c <;> simp [h]

end LastSent

/-- RESYNC and DISPATCH send no nibble. -/
theorem lastSent_resyncEvents (s : State) (p q : Port) (owed : Bool) (k : Which) (es : List Event) :
    lastSent p k (es ++ resyncEvents s q owed) = lastSent p k es := by
  cases owed <;> simp [resyncEvents]

theorem lastSent_dispatchEvents (s : State) (idx : Byte) (p : Port) (k : Which) (es : List Event) :
    lastSent p k (es ++ dispatchEvents s idx) = lastSent p k es := by
  unfold dispatchEvents
  split
  · simp
  · split <;> simp

/-! ### The invariant of one cell (R27 items 2 and 3) -/

/-- The countdown is at most `DELAY`, and for `DELAY >= 1` a cell that reads true still counts. -/
def CellOk (delay : Byte) (c : Cell) : Prop :=
  c.cnt.toNat ≤ delay.toNat ∧ (1 ≤ delay.toNat → c.fs = true → 1 ≤ c.cnt.toNat)

theorem cellOk_cleared (delay : Byte) : CellOk delay Cell.cleared :=
  ⟨Nat.zero_le _, fun _ h => absurd h (by decide)⟩

/-- A step keeps the invariant of its cell: a cell that asserts has just seen a true sample, which reloads the
countdown. -/
theorem cellOk_filterStep {width : Nibble} {delay : Byte} {c : Cell} (raw : Bool) (h1 : 1 ≤ width.toNat)
    (h8 : width.toNat ≤ 8) (ok : CellOk delay c) : CellOk delay (filterStep width delay c raw) := by
  obtain ⟨bounded, -⟩ := ok
  refine ⟨?_, fun hd reads => ?_⟩
  · cases raw with
    | true => exact le_refl delay.toNat
    | false => rw [filterStep_false_cnt]; omega
  · cases was : c.fs with
    | true => exact (filterStep_fs_of_asserted raw was).mp reads
    | false =>
      have newest := (filterStep_fs_of_released raw was h8).mp reads 0 h1
      rw [getLsbD_zero_filterStep_hist] at newest
      subst newest
      exact hd

theorem invariants_iff (s : State) :
    Invariants s ↔ widthLegal s ∧ (∀ p j, CellOk s.delay (s.cell p j)) ∧ lastIsSent s := by
  constructor
  · rintro ⟨width, bounded, held, sent⟩
    exact ⟨width, fun p j => ⟨bounded p j, fun hd => held hd p j⟩, sent⟩
  · rintro ⟨width, cells, sent⟩
    exact ⟨width, fun p j => (cells p j).1, fun hd p j => (cells p j).2 hd, sent⟩

/-! ### What keeps the invariants -/

/-- The invariants read `WIDTH`, `DELAY`, the cells, the last reported nibbles and the nibbles sent, and nothing else. -/
theorem invariants_of_frame {s t : State} (width : t.width = s.width) (delay : t.delay = s.delay)
    (cells : ∀ p j, t.cell p j = s.cell p j) (lo : ∀ p, t.lastLo p = s.lastLo p) (hi : ∀ p, t.lastHi p = s.lastHi p)
    (sent : ∀ p k, lastSent p k t.events = lastSent p k s.events) (h : Invariants s) : Invariants t := by
  simp only [invariants_iff, widthLegal, lastIsSent, width, delay, cells, lo, hi, sent] at h ⊢
  exact h

/-- The invariants hold in the reset state of every board. -/
theorem invariants_resetWith (b : Board) : Invariants (State.resetWith b) := by
  rw [invariants_iff]
  refine ⟨⟨by simp [State.resetWith], by simp [State.resetWith]⟩, fun p j => ?_, fun p => ?_⟩
  · rw [State.resetWith_cell]
    exact cellOk_cleared _
  · obtain ⟨lo, hi, -⟩ := resetWith_port_registers b p
    exact ⟨lo, hi⟩

theorem invariants_reloadConfig (w r : Byte) {s : State} (h : Invariants s) : Invariants (reloadConfig w r s) := by
  rw [invariants_iff] at h ⊢
  obtain ⟨-, -, sent⟩ := h
  refine ⟨clampWidth_legal w, fun p j => ?_, fun p => ?_⟩
  · rw [reloadConfig_cell]
    exact cellOk_cleared _
  · rw [reloadConfig_lastLo, reloadConfig_lastHi, reloadConfig_events]
    exact sent p

theorem invariants_scanPort (p : Port) (raw : Byte) {s : State} (h : Invariants s) : Invariants (scanPort p raw s) := by
  rw [invariants_iff] at h ⊢
  obtain ⟨⟨h1, h8⟩, cells, sent⟩ := h
  refine ⟨?_, fun q j => ?_, fun q => ?_⟩
  · rw [widthLegal, scanPort_width]
    exact ⟨h1, h8⟩
  · rw [scanPort_delay, scanPort_cell_eq]
    split
    · exact cellOk_filterStep _ h1 h8 (cells q j)
    · exact cells q j
  · rw [scanPort_lastLo, scanPort_lastHi, scanPort_events]
    exact sent q

/-- A report sends what it writes: a nibble that it does not send is the one last sent (R27 item 4). -/
theorem lastIsSent_reportPort (p : Port) {s : State} (sent : lastIsSent s) : lastIsSent (reportPort p s) := by
  intro q
  obtain ⟨lo, hi⟩ := sent q
  rw [reportPort_events, reportEvents_eq, ← List.append_assoc, lastSent_sendNibble_if, lastSent_sendNibble_if,
    lastSent_sendNibble_if, lastSent_sendNibble_if, reportPort_lastLo, reportPort_lastHi, ← lo, ← hi]
  by_cases own : q = p
  · subst own
    constructor <;> grind
  · simp [own, Ne.symm own]

theorem invariants_reportPort (p : Port) {s : State} (h : Invariants s) : Invariants (reportPort p s) := by
  rw [invariants_iff] at h ⊢
  obtain ⟨width, cells, sent⟩ := h
  refine ⟨?_, fun q j => ?_, lastIsSent_reportPort p sent⟩
  · rw [widthLegal, reportPort_width]
    exact width
  · rw [reportPort_delay, reportPort_cell]
    exact cells q j

theorem invariants_resyncPort (p : Port) (owed : Bool) {s : State} (h : Invariants s) :
    Invariants (resyncPort p owed s) := by
  refine invariants_of_frame (resyncPort_width s p owed) (resyncPort_delay s p owed)
    (fun q j => resyncPort_cell s p q j owed) (fun q => resyncPort_lastLo s p q owed)
    (fun q => resyncPort_lastHi s p q owed) (fun q k => ?_) h
  rw [resyncPort_events]
  exact lastSent_resyncEvents s q p owed k s.events

/-- Every command keeps the invariants. -/
theorem invariants_effect (i : Instr) {s : State} (h : Invariants s) : Invariants (effect i s) := by
  cases i with
  | nop => exact h
  | init w r => exact invariants_reloadConfig w r h
  | setdir d =>
    exact invariants_of_frame (s := s) rfl rfl (fun p j => latchDirections_cell s p j d)
      (fun p => latchDirections_lastLo s p d) (fun p => latchDirections_lastHi s p d) (fun _ _ => rfl) h
  | scan p raw => exact invariants_scanPort p raw h
  | report p => exact invariants_reportPort p h
  | resync p owed => exact invariants_resyncPort p owed h
  | tick p raw owed => exact invariants_resyncPort p owed (invariants_reportPort p (invariants_scanPort p raw h))
  | dispatch idx level =>
    refine invariants_of_frame (dispatchLevel_width s idx level) (dispatchLevel_delay s idx level)
      (fun p j => dispatchLevel_cell s p j idx level) (fun p => dispatchLevel_lastLo s p idx level)
      (fun p => dispatchLevel_lastHi s p idx level) (fun p k => ?_) h
    rw [effect, dispatchLevel_events, lastSent_dispatchEvents]

/-- What is presented is no part of the invariants. -/
theorem invariants_pending {s : State} (rest : List Stimulus) (h : Invariants s) :
    Invariants { s with pending := rest } :=
  invariants_of_frame rfl rfl (fun _ _ => rfl) (fun _ => rfl) (fun _ => rfl) (fun _ _ => rfl) h

/-- Settles O56: every board's reset state, and a binding of `BIND_N` pairs. -/
theorem invariantsAtReset : Obligations.InvariantsAtReset := by
  refine ⟨invariants_resetWith Config.board, ?_, invariants_resetWith⟩
  have size : Config.board.bind.length ≤ 256 := by
    rw [Config.board, List.length_map, List.length_range]
    omega
  exact decide_eq_true size

/-- Settles O57: reset establishes the invariants whatever held before, and every command keeps them. -/
theorem invariantsKeptByEveryStep : Obligations.InvariantsKeptByEveryStep := by
  unfold Obligations.InvariantsKeptByEveryStep
  intro s t h hstep
  obtain ⟨-, rfl⟩ | ⟨rest, -, rfl⟩ | ⟨cmd, rest, i, -, -, rfl⟩ | ⟨cmd, rest, -, rfl⟩ := step_next_cases hstep
  · exact h
  · exact invariants_of_frame rfl rfl (fun _ _ => rfl) (fun _ => rfl) (fun _ => rfl) (fun _ _ => rfl)
      (invariants_resetWith s.board)
  · exact invariants_effect i (invariants_pending rest h)
  · exact invariants_pending rest h

end Sys2Proof.Machine

/-! ## Independence of the ports and of DISPATCH (R87, R88 e) -/

namespace Sys2Proof.Machine

/-! ### What a command of a tick reads -/

/-- What a command of a tick for port `p` reads of a state: the port's cells, last reported nibbles and direction, and
`WIDTH` and `DELAY`. -/
def sameInput (s t : State) (p : Port) : Prop :=
  (∀ j, t.cell p j = s.cell p j) ∧ sameLast s t p ∧ sameDir s t p ∧ sameWindow s t

section TickInput
variable {s t : State} {p : Port}

theorem sameInput_of_port (port : t.port p = s.port p) (window : sameWindow s t) : sameInput s t p :=
  ⟨fun j => by rw [State.cell, port, State.cell],
    ⟨by rw [State.lastLo, port, State.lastLo], by rw [State.lastHi, port, State.lastHi]⟩,
    by rw [sameDir, State.dir, port, State.dir], window⟩

theorem sameInput_scanPort (raw : Byte) (h : sameInput s t p) : sameInput (scanPort p raw s) (scanPort p raw t) p := by
  obtain ⟨cells, ⟨lo, hi⟩, dir, width, delay⟩ := h
  rw [sameDir] at dir
  refine ⟨fun j => ?_, ⟨?_, ?_⟩, ?_, ?_, ?_⟩
  · rw [scanPort_cell_eq, scanPort_cell_eq, cells, dir, width, delay]
  · rw [scanPort_lastLo, scanPort_lastLo, lo]
  · rw [scanPort_lastHi, scanPort_lastHi, hi]
  · rw [sameDir, scanPort_dir, scanPort_dir, dir]
  · rw [scanPort_width, scanPort_width, width]
  · rw [scanPort_delay, scanPort_delay, delay]

theorem sameInput_reportPort (h : sameInput s t p) : sameInput (reportPort p s) (reportPort p t) p := by
  obtain ⟨cells, -, dir, width, delay⟩ := h
  rw [sameDir] at dir
  refine ⟨fun j => ?_, ⟨?_, ?_⟩, ?_, ?_, ?_⟩
  · rw [reportPort_cell, reportPort_cell, cells]
  · rw [reportPort_lastLo, reportPort_lastLo, if_pos rfl, if_pos rfl, packLo_congr s t p cells]
  · rw [reportPort_lastHi, reportPort_lastHi, if_pos rfl, if_pos rfl, packHi_congr s t p cells]
  · rw [sameDir, reportPort_dir, reportPort_dir, dir]
  · rw [reportPort_width, reportPort_width, width]
  · rw [reportPort_delay, reportPort_delay, delay]

theorem sameInput_resyncPort (owed : Bool) (h : sameInput s t p) :
    sameInput (resyncPort p owed s) (resyncPort p owed t) p := by
  simp only [sameInput, sameLast, sameDir, sameWindow, resyncPort_cell, resyncPort_lastLo, resyncPort_lastHi,
    resyncPort_dir, resyncPort_width, resyncPort_delay]
  exact h

theorem reportEvents_of_sameInput (h : sameInput s t p) : reportEvents t p = reportEvents s p := by
  obtain ⟨cells, ⟨lo, hi⟩, -⟩ := h
  exact reportEvents_congr s t p cells lo hi

theorem resyncEvents_of_sameInput (owed : Bool) (h : sameInput s t p) : resyncEvents t p owed = resyncEvents s p owed := by
  obtain ⟨cells, -⟩ := h
  rw [resyncEvents, resyncEvents, packByte_congr s t p cells]

/-- A command of a tick does to its port, and sends, what its input determines. -/
theorem effect_of_sameInput {i : Instr} (hi : tickPort i = some p) (h : sameInput s t p) :
    sameInput (effect i s) (effect i t) p ∧ emits i t = emits i s := by
  cases i with
  | scan q raw =>
    obtain rfl := Option.some.inj hi
    exact ⟨sameInput_scanPort raw h, rfl⟩
  | report q =>
    obtain rfl := Option.some.inj hi
    exact ⟨sameInput_reportPort h, reportEvents_of_sameInput h⟩
  | resync q owed =>
    obtain rfl := Option.some.inj hi
    exact ⟨sameInput_resyncPort owed h, resyncEvents_of_sameInput owed h⟩
  | tick q raw owed =>
    obtain rfl := Option.some.inj hi
    have scanned := sameInput_scanPort raw h
    refine ⟨sameInput_resyncPort owed (sameInput_reportPort scanned), ?_⟩
    rw [emits, emits, reportEvents_of_sameInput scanned, resyncEvents_of_sameInput owed scanned]
  | nop => exact absurd hi (by simp [tickPort])
  | init w r => exact absurd hi (by simp [tickPort])
  | setdir d => exact absurd hi (by simp [tickPort])
  | dispatch idx level => exact absurd hi (by simp [tickPort])

end TickInput

/-! ### What a command of a tick does not write -/

section TickFrame
variable {i : Instr} {p : Port} (hi : tickPort i = some p) (s : State)
include hi

theorem effect_out_of_tick (q : Port) (j : Pin) : (effect i s).out q j = s.out q j := by
  by_contra h
  obtain ⟨idx, level, rfl, -⟩ := writer_of_out h
  exact absurd hi (by simp [tickPort])

theorem effect_dir_of_tick (q : Port) : (effect i s).dir q = s.dir q := by
  by_contra h
  obtain ⟨d, rfl⟩ := writer_of_dir h
  exact absurd hi (by simp [tickPort])

theorem sameWindow_of_tick : sameWindow s (effect i s) := by
  by_contra h
  obtain ⟨w, r, rfl⟩ := writer_of_window h
  exact absurd hi (by simp [tickPort])

/-- A command of a tick leaves the input of the commands for other ports. -/
theorem sameInput_of_tick {q : Port} (hq : q ≠ p) : sameInput s (effect i s) q :=
  sameInput_of_port (effect_port_ne i s hi hq) (sameWindow_of_tick hi s)

end TickFrame

/-! ### Two orders -/

section Commute
variable {s t u : State} {p : Port}

/-- What two orders of commands leave alike on a port, if they leave its latches. -/
theorem samePort_of_sameInput (h : sameInput t u p) (out : sameOut t u p) : samePort t u p := by
  obtain ⟨cells, last, dir, -⟩ := h
  exact ⟨sameCells_of_cell cells, last, dir, out⟩

theorem sameInput.symm (h : sameInput s t p) : sameInput t s p := by
  obtain ⟨cells, ⟨lo, hi⟩, dir, width, delay⟩ := h
  exact ⟨fun j => (cells j).symm, ⟨lo.symm, hi.symm⟩, dir.symm, width.symm, delay.symm⟩

theorem sameInput.trans (h : sameInput s t p) (h' : sameInput t u p) : sameInput s u p := by
  obtain ⟨cells, ⟨lo, hi⟩, dir, width, delay⟩ := h
  obtain ⟨cells', ⟨lo', hi'⟩, dir', width', delay'⟩ := h'
  exact ⟨fun j => (cells' j).trans (cells j), ⟨lo'.trans lo, hi'.trans hi⟩, Eq.trans dir' dir, width'.trans width,
    delay'.trans delay⟩

/-- A command of a tick leaves the same on its port before and after a command of another port. -/
theorem sameInput_commute {i k : Instr} {q : Port} (hi : tickPort i = some p) (hk : tickPort k = some q) (ne : p ≠ q)
    (s : State) : sameInput (effect k (effect i s)) (effect i (effect k s)) p :=
  (sameInput_of_tick hk (effect i s) ne).symm.trans (effect_of_sameInput hi (sameInput_of_tick hk s ne)).1

end Commute

/-- Settles O58: each command reads and writes its own port, so the other one's place does not matter to it. -/
theorem portsServedInAnyOrder : Obligations.PortsServedInAnyOrder := by
  unfold Obligations.PortsServedInAnyOrder
  intro s i k p q hi hk ne
  have same : ∀ r, sameInput (effect k (effect i s)) (effect i (effect k s)) r := by
    intro r
    by_cases hp : r = p
    · subst hp
      exact sameInput_commute hi hk ne s
    · by_cases hq : r = q
      · subst hq
        exact (sameInput_commute hk hi ne.symm s).symm
      · have first : sameInput s (effect k (effect i s)) r :=
          (sameInput_of_tick hi s hp).trans (sameInput_of_tick hk _ hq)
        have second : sameInput s (effect i (effect k s)) r :=
          (sameInput_of_tick hk s hq).trans (sameInput_of_tick hi _ hp)
        exact first.symm.trans second
  have events := emitted_effect k (effect i s)
  have events' := emitted_effect i (effect k s)
  rw [(effect_of_sameInput hk (sameInput_of_tick hi s ne.symm)).2] at events
  rw [(effect_of_sameInput hi (sameInput_of_tick hk s ne)).2] at events'
  refine ⟨effect i s, effect k s, _, _, emits i s, emits k s, exec_eq i s, exec_eq k _, exec_eq k s, exec_eq i _,
    fun r => samePort_of_sameInput (same r) fun j => ?_, ?_, ?_, emitted_effect i s, events, emitted_effect k s, events'⟩
  · rw [effect_out_of_tick hi, effect_out_of_tick hk, effect_out_of_tick hk, effect_out_of_tick hi]
  · obtain ⟨-, -, -, window⟩ := same p
    exact window
  · exact ⟨by simp only [effect_board], by simp only [effect_pending]⟩

/-- A DISPATCH leaves the input side (R88 e). -/
theorem sameInput_dispatchLevel (s : State) (idx : Byte) (level : Bool) (q : Port) :
    sameInput s (dispatchLevel idx level s) q :=
  ⟨fun j => dispatchLevel_cell s q j idx level, ⟨dispatchLevel_lastLo s q idx level, dispatchLevel_lastHi s q idx level⟩,
    dispatchLevel_dir s q idx level, dispatchLevel_width s idx level, dispatchLevel_delay s idx level⟩

/-- A command of a tick leaves what a DISPATCH reads: the binding, the directions and the latches. -/
theorem dispatchLevel_out_of_tick {i : Instr} {p : Port} (hi : tickPort i = some p) (s : State) (idx : Byte)
    (level : Bool) (q : Port) (j : Pin) :
    (dispatchLevel idx level (effect i s)).out q j = (dispatchLevel idx level s).out q j := by
  rw [dispatchLevel_out, dispatchLevel_out, effect_board]
  simp only [effect_dir_of_tick hi, effect_out_of_tick hi]

/-- Settles O59: a DISPATCH leaves the input side, and a command of a tick what a DISPATCH reads. -/
theorem dispatchIndependentOfTicks : Obligations.DispatchIndependentOfTicks := by
  unfold Obligations.DispatchIndependentOfTicks
  intro s i p idx level hi
  have dispatched := sameInput_dispatchLevel s idx level
  have dispatchedAfter := sameInput_dispatchLevel (effect i s) idx level
  have same : ∀ r, sameInput (effect i (dispatchLevel idx level s)) (dispatchLevel idx level (effect i s)) r := by
    intro r
    by_cases hp : r = p
    · subst hp
      exact (effect_of_sameInput hi (dispatched r)).1.symm.trans (dispatchedAfter r)
    · have first : sameInput s (effect i (dispatchLevel idx level s)) r :=
        (dispatched r).trans (sameInput_of_tick hi _ hp)
      have second : sameInput s (dispatchLevel idx level (effect i s)) r :=
        (sameInput_of_tick hi s hp).trans (dispatchedAfter r)
      exact first.symm.trans second
  have events := emitted_effect i (dispatchLevel idx level s)
  have events' := emitted_effect (.dispatch idx level) (effect i s)
  rw [(effect_of_sameInput hi (dispatched p)).2] at events
  rw [emits, dispatchEvents_congr s (effect i s) idx (effect_board i s) (effect_dir_of_tick hi s)] at events'
  refine ⟨_, effect i s, _, _, dispatchEvents s idx, emits i s, exec_dispatch idx level s, exec_eq i _, exec_eq i s,
    exec_dispatch idx level _, fun r => samePort_of_sameInput (same r) fun j => ?_, ?_, ?_,
    emitted_effect (.dispatch idx level) s, events, emitted_effect i s, events'⟩
  · rw [dispatchLevel_out_of_tick hi, effect_out_of_tick hi]
  · obtain ⟨-, -, -, window⟩ := same p
    exact window
  · exact ⟨by simp only [effect_board, dispatchLevel_board], by simp only [effect_pending, dispatchLevel_pending]⟩

/-! ## The caller's discipline (R109, R112, R113) -/

section Discipline
variable {ph : TickPhases} {s t : State} {p : Port}

theorem reportedNow_of_same (cells : ∀ j, t.cell p j = s.cell p j) (last : sameLast s t p) (h : reportedNow s p) :
    reportedNow t p := by
  obtain ⟨lo, hi⟩ := last
  rw [reportedNow, lo, hi, packLo_congr s t p cells, packHi_congr s t p cells]
  exact h

theorem reportedNow_of_sameInput (same : sameInput s t p) (h : reportedNow s p) : reportedNow t p := by
  obtain ⟨cells, last, -⟩ := same
  exact reportedNow_of_same cells last h

/-- Between ticks no port is under way, so nothing is asked. -/
theorem nothingUnreported_betweenTicks (s : State) : nothingUnreported betweenTicks s := by
  intro p under
  have waiting : betweenTicks[p] = .waiting := by simp [betweenTicks]
  rw [waiting] at under
  exact absurd under (by decide)

theorem getElem_set_phase (ph : TickPhases) (p q : Port) (x : TickPhase) :
    (ph.set p x)[q] = if q = p then x else ph[q] := by
  simp only [Fin.getElem_fin, Vector.getElem_set, Fin.ext_iff, eq_comm]

/-- A command for port `p` moves on its phase, and keeps the rest if it leaves the other ports. -/
theorem nothingUnreported_set {x : TickPhase} (others : ∀ q, q ≠ p → sameInput s t q)
    (own : x = .reported ∨ x = .served → reportedNow t p) (h : nothingUnreported ph s) :
    nothingUnreported (ph.set p x) t := by
  intro q under
  rw [getElem_set_phase] at under
  by_cases hq : q = p
  · subst hq
    rw [if_pos rfl] at under
    exact own under
  · rw [if_neg hq] at under
    exact reportedNow_of_sameInput (others q hq) (h q under)

/-- A port that has left the phase `waiting` is under way, so it is not between ticks. -/
theorem set_ne_betweenTicks {x : TickPhase} (hx : x ≠ .waiting) : ph.set p x ≠ betweenTicks := by
  intro e
  have own := congrArg (fun v : TickPhases => v[p]) e
  simp only [getElem_set_phase, if_true] at own
  exact hx (own.trans (by simp [betweenTicks]))

/-- When the last port is served, every port has been, and so reported. -/
theorem finishPort_reported (h : nothingUnreported (ph.set p .served) t) :
    nothingUnreported (finishPort ph p) t ∧ (finishPort ph p = betweenTicks → ∀ q, reportedNow t q) := by
  unfold finishPort
  dsimp only
  split
  case isTrue all =>
    refine ⟨nothingUnreported_betweenTicks t, fun _ q => h q (.inr ?_)⟩
    rw [all]
    simp
  case isFalse => exact ⟨h, fun e => absurd e (set_ne_betweenTicks (by decide))⟩

/-- What one command keeps of the discipline's promise. -/
theorem nothingUnreported_effect {i : Instr} {ph' : TickPhases} (h : nothingUnreported ph s)
    (kept : advanceTick ph i = some ph') : nothingUnreported ph' (effect i s) ∧
      (isTickCommand i = true → ph' = betweenTicks → ∀ p, reportedNow (effect i s) p) := by
  cases i with
  | nop =>
    obtain rfl := Option.some.inj kept
    exact ⟨h, fun tick => Bool.noConfusion tick⟩
  | init w r =>
    obtain ⟨rfl, e⟩ := Option.ite_none_right_eq_some.mp kept
    obtain rfl := Option.some.inj e
    exact ⟨nothingUnreported_betweenTicks _, fun tick => Bool.noConfusion tick⟩
  | setdir d =>
    obtain ⟨rfl, e⟩ := Option.ite_none_right_eq_some.mp kept
    obtain rfl := Option.some.inj e
    exact ⟨nothingUnreported_betweenTicks _, fun tick => Bool.noConfusion tick⟩
  | scan p raw =>
    obtain ⟨-, e⟩ := Option.ite_none_right_eq_some.mp kept
    obtain rfl := Option.some.inj e
    refine ⟨nothingUnreported_set (fun q => sameInput_of_tick rfl s) (fun phase => ?_) h,
      fun _ ended => absurd ended (set_ne_betweenTicks (by decide))⟩
    exact absurd phase (by decide)
  | report p =>
    obtain ⟨-, e⟩ := Option.ite_none_right_eq_some.mp kept
    obtain rfl := Option.some.inj e
    exact ⟨nothingUnreported_set (fun q => sameInput_of_tick rfl s) (fun _ => reportedNow_reportPort s p) h,
      fun _ ended => absurd ended (set_ne_betweenTicks (by decide))⟩
  | resync p owed =>
    obtain ⟨reported, e⟩ := Option.ite_none_right_eq_some.mp kept
    obtain rfl := Option.some.inj e
    have own : reportedNow (effect (.resync p owed) s) p :=
      reportedNow_of_same (fun j => resyncPort_cell s p p j owed)
        ⟨resyncPort_lastLo s p p owed, resyncPort_lastHi s p p owed⟩ (h p (.inl reported))
    obtain ⟨keeps, ends⟩ := finishPort_reported
      (nothingUnreported_set (fun q => sameInput_of_tick rfl s) (fun _ => own) h)
    exact ⟨keeps, fun _ => ends⟩
  | tick p raw owed =>
    obtain ⟨-, e⟩ := Option.ite_none_right_eq_some.mp kept
    obtain rfl := Option.some.inj e
    obtain ⟨keeps, ends⟩ := finishPort_reported
      (nothingUnreported_set (fun q => sameInput_of_tick rfl s) (fun _ => reportedNow_tick s p raw owed) h)
    exact ⟨keeps, fun _ => ends⟩
  | dispatch idx level =>
    obtain rfl := Option.some.inj kept
    exact ⟨fun p under => reportedNow_of_sameInput (sameInput_dispatchLevel s idx level p) (h p under),
      fun tick => Bool.noConfusion tick⟩

/-- A list of commands that keeps the discipline keeps its promise. -/
theorem nothingUnreported_execAll {is : List Instr} {ph' : TickPhases} (h : nothingUnreported ph s)
    (kept : advanceTicks ph is = some ph') (run : execAll is s = .next t) : nothingUnreported ph' t := by
  induction is generalizing ph s with
  | nil =>
    obtain rfl := Option.some.inj kept
    obtain rfl := Host.Outcome.next.inj run
    exact h
  | cons i is ih =>
    obtain ⟨ph₁, first, rest⟩ := Option.bind_eq_some_iff.mp kept
    rw [execAll_cons] at run
    exact ih (nothingUnreported_effect h first).1 rest run

end Discipline

/-- Settles O60: the step by command, the list by induction from between ticks. -/
theorem disciplinedTicksReportEveryChange : Obligations.DisciplinedTicksReportEveryChange := by
  unfold Obligations.DisciplinedTicksReportEveryChange
  refine ⟨fun i ph ph' s t h kept run => ?_, fun is ph s t kept run => ?_⟩
  · obtain rfl := (exec_eq_next_iff i s t).mp run
    exact nothingUnreported_effect h kept
  · exact nothingUnreported_execAll (nothingUnreported_betweenTicks s) kept run

end Sys2Proof.Machine
